-- ==== Sys2Proof/Word.lean ====
section
/-! DEFINITION. The word types of CORE: bytes, 16-bit registers, instruction fields. Rule numbers R<n>, decisions D<n> and
conflicts C<n> in docstrings are those of spec/. -/

namespace Sys2Proof

/-- A byte of memory, a general register, an 8-bit immediate `NN` (R21, R50, R73). -/
abbrev Byte := BitVec 8

/-- A 16-bit value: `I`, `pc`, a return address, an instruction word (R23, R24, R27, R71). -/
abbrev Word := BitVec 16

/-- A 4-bit field of an instruction word (R73). -/
abbrev Nibble := BitVec 4

/-- A 12-bit address field `NNN` (R73). -/
abbrev Addr12 := BitVec 12

/-- The number of a general register, 0 to 15 (R21). A name, never an operand of arithmetic. -/
abbrev Reg := Fin 16

/-- A key code, 0 to 15 (R36, R170). -/
abbrev Key := Fin 16

/-- `VF`, the register that doubles as the flag (R22). -/
abbrev VF : Reg := 15

end Sys2Proof
end

