-- ==== Sys2Proof/Config.lean ====
section
/-! DEFINITION. The fixed parameters of CORE (R6) and the free values, which the spec leaves open. -/

namespace Sys2Proof.Config

/-- `MEM_SIZE`: bytes of memory (R6). -/
abbrev memSize : Nat := 4096

/-- `FONT_LO_BASE`: first byte of the low-resolution font (R6). -/
abbrev fontLoBase : Nat := 0x050

/-- `FONT_LO_LEN`: 16 glyphs of 5 bytes (R6). -/
abbrev fontLoLen : Nat := 80

/-- `FONT_HI_BASE`: first byte of the high-resolution font (R6, C3). -/
abbrev fontHiBase : Nat := 0x0A0

/-- `FONT_HI_LEN`: 16 glyphs of 10 bytes (R6). -/
abbrev fontHiLen : Nat := 160

/-- `PROG_BASE`: load address of the program and reset value of `pc` (R6). -/
abbrev progBase : Nat := 0x200

/-- `PROG_MAX`: the largest program image (R6). -/
abbrev progMax : Nat := 3584

/-- FREE VALUE. Byte `k` of `FONT_HI`, `k` from 0 to 159: the spec gives no value and lets none be assumed (R55, D2).
Log entry 8. -/
opaque fontHi : Nat → Byte

/-- FREE VALUE. The held-key mask the host gives with a STEP, by the number of the draw: any 16-bit mask (R162, U4).
Log entry 2. -/
opaque freeKeys : Nat → BitVec 16

/-- FREE VALUE. The random byte the host gives with a STEP, by the number of the draw: any byte under no law (R122, R162,
U3). Log entry 2. -/
opaque freeRnd : Nat → Byte

end Sys2Proof.Config
end

