-- ==== Sys2Proof/Syntax.lean ====
section
/-! DEFINITION. The instructions of CORE: one constructor per row of the opcode map (R78), in the table's order. -/

namespace Sys2Proof

/-- The 42 instructions (R2, R78). `x`, `y` are register numbers, `n`, `nn`, `nnn` the unsigned immediates (R73, R74). -/
inductive Instr where
  /-- `00CN` SCD n, R90 -/
  | scd (n : Nibble)
  /-- `00E0` CLS, R91 -/
  | cls
  /-- `00EE` RET, R92 -/
  | ret
  /-- `00FB` SCR, R93 -/
  | scr
  /-- `00FC` SCL, R94 -/
  | scl
  /-- `00FD` EXIT, R95 -/
  | exit
  /-- `00FE` LOW, R96 -/
  | low
  /-- `00FF` HIGH, R97 -/
  | high
  /-- `1NNN` JP nnn, R100 -/
  | jp (nnn : Addr12)
  /-- `2NNN` CALL nnn, R101 -/
  | call (nnn : Addr12)
  /-- `3XNN` SE Vx, nn, R102 -/
  | seI (x : Reg) (nn : Byte)
  /-- `4XNN` SNE Vx, nn, R103 -/
  | sneI (x : Reg) (nn : Byte)
  /-- `5XY0` SE Vx, Vy, R104 -/
  | seR (x y : Reg)
  /-- `9XY0` SNE Vx, Vy, R105 -/
  | sneR (x y : Reg)
  /-- `6XNN` LD Vx, nn, R106 -/
  | ldI (x : Reg) (nn : Byte)
  /-- `7XNN` ADD Vx, nn, R107 -/
  | addI (x : Reg) (nn : Byte)
  /-- `8XY0` LD Vx, Vy, R111 -/
  | ldR (x y : Reg)
  /-- `8XY1` OR Vx, Vy, R112 -/
  | orR (x y : Reg)
  /-- `8XY2` AND Vx, Vy, R113 -/
  | andR (x y : Reg)
  /-- `8XY3` XOR Vx, Vy, R114 -/
  | xorR (x y : Reg)
  /-- `8XY4` ADD Vx, Vy, R115 -/
  | addR (x y : Reg)
  /-- `8XY5` SUB Vx, Vy, R116 -/
  | sub (x y : Reg)
  /-- `8XY6` SHR Vx, Vy, R117 -/
  | shr (x y : Reg)
  /-- `8XY7` SUBN Vx, Vy, R118 -/
  | subn (x y : Reg)
  /-- `8XYE` SHL Vx, Vy, R119 -/
  | shl (x y : Reg)
  /-- `ANNN` LD I, nnn, R120 -/
  | ldIdx (nnn : Addr12)
  /-- `BNNN` JP V0, nnn or JP Vx, nn by the jump quirk: one word, one row (R77), R121 -/
  | jpOff (nnn : Addr12)
  /-- `CXNN` RND Vx, nn, R122 -/
  | rnd (x : Reg) (nn : Byte)
  /-- `DXYN`, N = 1 to 15: DRW Vx, Vy, n, R126 -/
  | drw (x y : Reg) (n : Nibble)
  /-- `DXY0` DRW Vx, Vy, 0, R127 -/
  | drw16 (x y : Reg)
  /-- `EX9E` SKP Vx, R130 -/
  | skp (x : Reg)
  /-- `EXA1` SKNP Vx, R131 -/
  | sknp (x : Reg)
  /-- `FX07` LD Vx, DT, R135 -/
  | ldVxDt (x : Reg)
  /-- `FX0A` LD Vx, K, R137 -/
  | ldVxK (x : Reg)
  /-- `FX15` LD DT, Vx, R138 -/
  | ldDtVx (x : Reg)
  /-- `FX18` LD ST, Vx, R139 -/
  | ldStVx (x : Reg)
  /-- `FX1E` ADD I, Vx, R140 -/
  | addIdx (x : Reg)
  /-- `FX29` LD F, Vx, R141 -/
  | ldF (x : Reg)
  /-- `FX30` LD HF, Vx, R142 -/
  | ldHf (x : Reg)
  /-- `FX33` LD B, Vx, R143 -/
  | ldB (x : Reg)
  /-- `FX55` LD [I], Vx, R144 -/
  | ldMemVx (x : Reg)
  /-- `FX65` LD Vx, [I], R146 -/
  | ldVxMem (x : Reg)
  deriving DecidableEq, Repr

end Sys2Proof
end

