-- ==== Sys2Proof/WellFormed.lean ====
section
/-! DEFINITION. What the types of the fields do not already say of an instruction. -/

namespace Sys2Proof

/-- A sprite height of `DXYN` is 1 to 15: with `N = 0` the word is the other row, `DXY0` (R76, R126). Every other field
may hold every value of its type (R82). -/
def Instr.wellFormed : Instr → Bool
  | .drw _ _ n => n != 0
  | .scd _ | .cls | .ret | .scr | .scl | .exit | .low | .high => true
  | .jp _ | .call _ | .seI _ _ | .sneI _ _ | .seR _ _ | .sneR _ _ | .ldI _ _ | .addI _ _ => true
  | .ldR _ _ | .orR _ _ | .andR _ _ | .xorR _ _ | .addR _ _ | .sub _ _ | .shr _ _ | .subn _ _ | .shl _ _ => true
  | .ldIdx _ | .jpOff _ | .rnd _ _ | .drw16 _ _ | .skp _ | .sknp _ => true
  | .ldVxDt _ | .ldVxK _ | .ldDtVx _ | .ldStVx _ | .addIdx _ | .ldF _ | .ldHf _ | .ldB _ => true
  | .ldMemVx _ | .ldVxMem _ => true

end Sys2Proof
end

