-- ==== Sys2Proof/Decode.lean ====
section
/-! DEFINITION. From bits to instructions and back (R70 to R82): the fields of a word, the decoder, the encoder, and the
mask and match of every row of the opcode map. -/

namespace Sys2Proof

/-- The four nibbles of a word joined, the class first (R72). -/
def packWord (c x y n : Nibble) : Word := c ++ x ++ y ++ n

/-- `class = opcode[15:12]` (R73). -/
def fieldClass (w : Word) : Nibble := w.extractLsb' 12 4

/-- The nibble `X = opcode[11:8]` (R73). -/
def fieldX (w : Word) : Nibble := w.extractLsb' 8 4

/-- The nibble `Y = opcode[7:4]` (R73). -/
def fieldY (w : Word) : Nibble := w.extractLsb' 4 4

/-- The nibble `N = opcode[3:0]` (R73). -/
def fieldN (w : Word) : Nibble := w.extractLsb' 0 4

/-- The register a nibble names (R74: direct). -/
def toReg (b : Nibble) : Reg := b.toFin

/-- The nibble that names a register. -/
def ofReg (r : Reg) : Nibble := BitVec.ofFin r

/-- `NN = Y ++ N` (R73). -/
def joinNN (y n : Nibble) : Byte := y ++ n

/-- `NNN = X ++ NN` (R73). -/
def joinNNN (x y n : Nibble) : Addr12 := x ++ y ++ n

/-- The high nibble of an 8-bit immediate. -/
def hiNN (b : Byte) : Nibble := b.extractLsb' 4 4

/-- The low nibble of an 8-bit immediate. -/
def loNN (b : Byte) : Nibble := b.extractLsb' 0 4

/-- Bits 11:8 of a 12-bit address. -/
def hiNNN (a : Addr12) : Nibble := a.extractLsb' 8 4

/-- Bits 7:4 of a 12-bit address. -/
def midNNN (a : Addr12) : Nibble := a.extractLsb' 4 4

/-- Bits 3:0 of a 12-bit address. -/
def loNNN (a : Addr12) : Nibble := a.extractLsb' 0 4

/-- Class 0: the whole low 12 bits are the sub-code, but for `00CN` (R75, R79). -/
def decodeClass0 (x y n : Nibble) : Option Instr :=
  match x, y, n with
  | 0x0#4, 0xC#4, n => some (.scd n)
  | 0x0#4, 0xE#4, 0x0#4 => some .cls
  | 0x0#4, 0xE#4, 0xE#4 => some .ret
  | 0x0#4, 0xF#4, 0xB#4 => some .scr
  | 0x0#4, 0xF#4, 0xC#4 => some .scl
  | 0x0#4, 0xF#4, 0xD#4 => some .exit
  | 0x0#4, 0xF#4, 0xE#4 => some .low
  | 0x0#4, 0xF#4, 0xF#4 => some .high
  | _, _, _ => none

/-- Class 8: the sub-code is `N` (R75, R79). -/
def decodeClass8 (x y : Reg) (n : Nibble) : Option Instr :=
  match n with
  | 0x0#4 => some (.ldR x y)
  | 0x1#4 => some (.orR x y)
  | 0x2#4 => some (.andR x y)
  | 0x3#4 => some (.xorR x y)
  | 0x4#4 => some (.addR x y)
  | 0x5#4 => some (.sub x y)
  | 0x6#4 => some (.shr x y)
  | 0x7#4 => some (.subn x y)
  | 0xE#4 => some (.shl x y)
  | _ => none

/-- Class E: the sub-code is `NN` (R75, R79). -/
def decodeClassE (x : Reg) (y n : Nibble) : Option Instr :=
  match y, n with
  | 0x9#4, 0xE#4 => some (.skp x)
  | 0xA#4, 0x1#4 => some (.sknp x)
  | _, _ => none

/-- Class F: the sub-code is `NN` (R75, R79). -/
def decodeClassF (x : Reg) (y n : Nibble) : Option Instr :=
  match y, n with
  | 0x0#4, 0x7#4 => some (.ldVxDt x)
  | 0x0#4, 0xA#4 => some (.ldVxK x)
  | 0x1#4, 0x5#4 => some (.ldDtVx x)
  | 0x1#4, 0x8#4 => some (.ldStVx x)
  | 0x1#4, 0xE#4 => some (.addIdx x)
  | 0x2#4, 0x9#4 => some (.ldF x)
  | 0x3#4, 0x0#4 => some (.ldHf x)
  | 0x3#4, 0x3#4 => some (.ldB x)
  | 0x5#4, 0x5#4 => some (.ldMemVx x)
  | 0x6#4, 0x5#4 => some (.ldVxMem x)
  | _, _ => none

/-- The instruction four nibbles stand for, if any: dispatch on the class, then on the class's sub-code (R75). Classes 5
and 9 with `N` not 0 are illegal (D11); class D with `N = 0` is `DXY0` (R76). -/
def decodeNibbles (c x y n : Nibble) : Option Instr :=
  match c with
  | 0x0#4 => decodeClass0 x y n
  | 0x1#4 => some (.jp (joinNNN x y n))
  | 0x2#4 => some (.call (joinNNN x y n))
  | 0x3#4 => some (.seI (toReg x) (joinNN y n))
  | 0x4#4 => some (.sneI (toReg x) (joinNN y n))
  | 0x5#4 => if n = 0 then some (.seR (toReg x) (toReg y)) else none
  | 0x6#4 => some (.ldI (toReg x) (joinNN y n))
  | 0x7#4 => some (.addI (toReg x) (joinNN y n))
  | 0x8#4 => decodeClass8 (toReg x) (toReg y) n
  | 0x9#4 => if n = 0 then some (.sneR (toReg x) (toReg y)) else none
  | 0xA#4 => some (.ldIdx (joinNNN x y n))
  | 0xB#4 => some (.jpOff (joinNNN x y n))
  | 0xC#4 => some (.rnd (toReg x) (joinNN y n))
  | 0xD#4 => if n = 0 then some (.drw16 (toReg x) (toReg y)) else some (.drw (toReg x) (toReg y) n)
  | 0xE#4 => decodeClassE (toReg x) y n
  | _ => decodeClassF (toReg x) y n

/-- The instruction a word stands for, by its four nibbles (R72, R75); none if the word is illegal (R79). -/
def decodeWord (w : Word) : Option Instr := decodeNibbles (fieldClass w) (fieldX w) (fieldY w) (fieldN w)

/-- What decoding bytes answers: an instruction, or a rejection by name. -/
inductive Decoded where
  /-- the word is one of the 43991 legal ones (R79) -/
  | instr (i : Instr)
  /-- UnsupportedOpcode: the word is illegal (R79, R80) -/
  | unsupported (w : Word)
  /-- fewer than two bytes: no instruction is shorter (R71) -/
  | tooShort
  deriving DecidableEq, Repr

/-- The word two bytes form, the byte at the lower address most significant (R57). -/
def wordOfBytes (first second : Byte) : Word := first ++ second

/-- The byte at the lower address of a word in memory (R57). -/
def firstByte (w : Word) : Byte := w.extractLsb' 8 8

/-- The byte at the higher address of a word in memory (R57). -/
def secondByte (w : Word) : Byte := w.extractLsb' 0 8

/-- The instruction at the head of a run of bytes. Every instruction is two bytes (R71), so what follows them plays no
part. -/
def decode : List Byte → Decoded
  | first :: second :: _ =>
    match decodeWord (wordOfBytes first second) with
    | some i => .instr i
    | none => .unsupported (wordOfBytes first second)
  | [_] => .tooShort
  | [] => .tooShort

/-- A word of format XNN (R72). -/
def packXNN (c : Nibble) (x : Reg) (nn : Byte) : Word := packWord c (ofReg x) (hiNN nn) (loNN nn)

/-- A word of format NNN (R72). -/
def packNNN (c : Nibble) (nnn : Addr12) : Word := packWord c (hiNNN nnn) (midNNN nnn) (loNNN nnn)

/-- A word of format XY or XYN (R72). -/
def packXYN (c : Nibble) (x y : Reg) (n : Nibble) : Word := packWord c (ofReg x) (ofReg y) n

/-- A word of format X (R72). -/
def packX (c : Nibble) (x : Reg) (y n : Nibble) : Word := packWord c (ofReg x) y n

/-- The word of an instruction, from the encodings of rules R90 to R146. -/
def encodeWord : Instr → Word
  | .scd n => packWord 0x0 0x0 0xC n
  | .cls => 0x00E0
  | .ret => 0x00EE
  | .scr => 0x00FB
  | .scl => 0x00FC
  | .exit => 0x00FD
  | .low => 0x00FE
  | .high => 0x00FF
  | .jp nnn => packNNN 0x1 nnn
  | .call nnn => packNNN 0x2 nnn
  | .seI x nn => packXNN 0x3 x nn
  | .sneI x nn => packXNN 0x4 x nn
  | .seR x y => packXYN 0x5 x y 0x0
  | .sneR x y => packXYN 0x9 x y 0x0
  | .ldI x nn => packXNN 0x6 x nn
  | .addI x nn => packXNN 0x7 x nn
  | .ldR x y => packXYN 0x8 x y 0x0
  | .orR x y => packXYN 0x8 x y 0x1
  | .andR x y => packXYN 0x8 x y 0x2
  | .xorR x y => packXYN 0x8 x y 0x3
  | .addR x y => packXYN 0x8 x y 0x4
  | .sub x y => packXYN 0x8 x y 0x5
  | .shr x y => packXYN 0x8 x y 0x6
  | .subn x y => packXYN 0x8 x y 0x7
  | .shl x y => packXYN 0x8 x y 0xE
  | .ldIdx nnn => packNNN 0xA nnn
  | .jpOff nnn => packNNN 0xB nnn
  | .rnd x nn => packXNN 0xC x nn
  | .drw x y n => packXYN 0xD x y n
  | .drw16 x y => packXYN 0xD x y 0x0
  | .skp x => packX 0xE x 0x9 0xE
  | .sknp x => packX 0xE x 0xA 0x1
  | .ldVxDt x => packX 0xF x 0x0 0x7
  | .ldVxK x => packX 0xF x 0x0 0xA
  | .ldDtVx x => packX 0xF x 0x1 0x5
  | .ldStVx x => packX 0xF x 0x1 0x8
  | .addIdx x => packX 0xF x 0x1 0xE
  | .ldF x => packX 0xF x 0x2 0x9
  | .ldHf x => packX 0xF x 0x3 0x0
  | .ldB x => packX 0xF x 0x3 0x3
  | .ldMemVx x => packX 0xF x 0x5 0x5
  | .ldVxMem x => packX 0xF x 0x6 0x5

/-- The two bytes of an instruction as they lie in memory (R57, R71). -/
def encode (i : Instr) : List Byte := [firstByte (encodeWord i), secondByte (encodeWord i)]

/-- A row of the opcode map (R78): a word `w` matches it iff `w &&& mask = bits` (R75). -/
structure OpcodeRow where
  mask : Word
  bits : Word
  deriving DecidableEq, Repr

/-- The instruction's row of the opcode map, mask and match as R78 prints them. -/
def Instr.row : Instr → OpcodeRow
  | .scd _ => ⟨0xFFF0, 0x00C0⟩
  | .cls => ⟨0xFFFF, 0x00E0⟩
  | .ret => ⟨0xFFFF, 0x00EE⟩
  | .scr => ⟨0xFFFF, 0x00FB⟩
  | .scl => ⟨0xFFFF, 0x00FC⟩
  | .exit => ⟨0xFFFF, 0x00FD⟩
  | .low => ⟨0xFFFF, 0x00FE⟩
  | .high => ⟨0xFFFF, 0x00FF⟩
  | .jp _ => ⟨0xF000, 0x1000⟩
  | .call _ => ⟨0xF000, 0x2000⟩
  | .seI _ _ => ⟨0xF000, 0x3000⟩
  | .sneI _ _ => ⟨0xF000, 0x4000⟩
  | .seR _ _ => ⟨0xF00F, 0x5000⟩
  | .sneR _ _ => ⟨0xF00F, 0x9000⟩
  | .ldI _ _ => ⟨0xF000, 0x6000⟩
  | .addI _ _ => ⟨0xF000, 0x7000⟩
  | .ldR _ _ => ⟨0xF00F, 0x8000⟩
  | .orR _ _ => ⟨0xF00F, 0x8001⟩
  | .andR _ _ => ⟨0xF00F, 0x8002⟩
  | .xorR _ _ => ⟨0xF00F, 0x8003⟩
  | .addR _ _ => ⟨0xF00F, 0x8004⟩
  | .sub _ _ => ⟨0xF00F, 0x8005⟩
  | .shr _ _ => ⟨0xF00F, 0x8006⟩
  | .subn _ _ => ⟨0xF00F, 0x8007⟩
  | .shl _ _ => ⟨0xF00F, 0x800E⟩
  | .ldIdx _ => ⟨0xF000, 0xA000⟩
  | .jpOff _ => ⟨0xF000, 0xB000⟩
  | .rnd _ _ => ⟨0xF000, 0xC000⟩
  | .drw _ _ _ => ⟨0xF000, 0xD000⟩
  | .drw16 _ _ => ⟨0xF00F, 0xD000⟩
  | .skp _ => ⟨0xF0FF, 0xE09E⟩
  | .sknp _ => ⟨0xF0FF, 0xE0A1⟩
  | .ldVxDt _ => ⟨0xF0FF, 0xF007⟩
  | .ldVxK _ => ⟨0xF0FF, 0xF00A⟩
  | .ldDtVx _ => ⟨0xF0FF, 0xF015⟩
  | .ldStVx _ => ⟨0xF0FF, 0xF018⟩
  | .addIdx _ => ⟨0xF0FF, 0xF01E⟩
  | .ldF _ => ⟨0xF0FF, 0xF029⟩
  | .ldHf _ => ⟨0xF0FF, 0xF030⟩
  | .ldB _ => ⟨0xF0FF, 0xF033⟩
  | .ldMemVx _ => ⟨0xF0FF, 0xF055⟩
  | .ldVxMem _ => ⟨0xF0FF, 0xF065⟩

/-- The word a table word stands for: its bits below `nbits`, the bits above them 0, of which an instruction has 16
(R71). -/
def tableWord (nbits w : Nat) : Word := BitVec.ofNat 16 (w % 2 ^ nbits)

/-- The instruction the decoder reads from an opcode-table word, laid out as the hardware stores it (R57). -/
def decodeTableWord (nbits w : Nat) : Option Instr :=
  match decode [firstByte (tableWord nbits w), secondByte (tableWord nbits w)] with
  | .instr i => some i
  | .unsupported _ => none
  | .tooShort => none

end Sys2Proof
end

