-- ==== Sys2Proof/Machine/Font.lean ====
section
/-! DEFINITION. The low-resolution font (R52, R54): a parameter of 80 bytes and its default. -/

namespace Sys2Proof.Machine

/-- `FONT_LO` (R7, R54): glyph `k` is bytes `5k` to `5k + 4`. -/
abbrev FontLo := Vector Byte 80

/-- The bytes of the table of R54, digit by digit. -/
def fontLoTable : List Byte :=
  [0xF0, 0x90, 0x90, 0x90, 0xF0] ++ [0x20, 0x60, 0x20, 0x20, 0x70] ++
  [0xF0, 0x10, 0xF0, 0x80, 0xF0] ++ [0xF0, 0x10, 0xF0, 0x10, 0xF0] ++
  [0x90, 0x90, 0xF0, 0x10, 0x10] ++ [0xF0, 0x80, 0xF0, 0x10, 0xF0] ++
  [0xF0, 0x80, 0xF0, 0x90, 0xF0] ++ [0xF0, 0x10, 0x20, 0x40, 0x40] ++
  [0xF0, 0x90, 0xF0, 0x90, 0xF0] ++ [0xF0, 0x90, 0xF0, 0x10, 0xF0] ++
  [0xF0, 0x90, 0xF0, 0x90, 0x90] ++ [0xE0, 0x90, 0xE0, 0x90, 0xE0] ++
  [0xF0, 0x80, 0x80, 0x80, 0xF0] ++ [0xE0, 0x90, 0x90, 0x90, 0xE0] ++
  [0xF0, 0x80, 0xF0, 0x80, 0xF0] ++ [0xF0, 0x80, 0xF0, 0x80, 0x80]

/-- The default of `FONT_LO` (R54, D1). PRESUMED by the spec itself; log entry 7. -/
def fontLoDefault : FontLo := ⟨fontLoTable.toArray, rfl⟩

end Sys2Proof.Machine
end

