-- ==== Sys2Proof/Machine/State.lean ====
section
/-! DEFINITION. The state of CORE (R20), the parameters the spec leaves open (R7), the host's side of the port (R160), and
the state after power-on reset (R40, R180). -/

namespace Sys2Proof.Machine

/-- A two-valued quirk (R33). -/
inductive Switch where
  | off
  | on
  deriving DecidableEq, Repr

/-- `shifting`: which operand the shifts read (R33). -/
inductive Shifting where
  | operandX
  | operandY
  deriving DecidableEq, Repr

/-- `reg_save_load`: what `FX55` and `FX65` do to `I` (R33, R145). -/
inductive RegSaveLoad where
  | unchanged
  | advanceByCount
  | advanceByCountPlusOne
  deriving DecidableEq, Repr

/-- `jump`: which operands `BNNN` adds (R33, R121). -/
inductive JumpQuirk where
  | classic
  | offsetByX
  deriving DecidableEq, Repr

/-- `scroll_style`: reserved, read by no rule (R34). -/
inductive ScrollStyle where
  | modern
  | legacy
  deriving DecidableEq, Repr

/-- `QUIRKS` (R33, R34): five switches and one reserved field. -/
structure Quirks where
  vfReset : Switch
  shifting : Shifting
  regSaveLoad : RegSaveLoad
  jump : JumpQuirk
  screenWrap : Switch
  scrollStyle : ScrollStyle
  deriving DecidableEq, Repr

/-- The cause of a latched fault (R150). -/
inductive Cause where
  | unsupportedOpcode
  | stackUnderflow
  | outOfBoundsAccess
  | stackOverflow
  deriving DecidableEq, Repr

/-- What `FAULT` holds while it is valid (R38). -/
structure FaultRecord where
  cause : Cause
  /-- the address of the faulting instruction -/
  ia : Word
  /-- the instruction word, the lowest out-of-range address, or 0, by the cause (R150) -/
  info : Word
  deriving DecidableEq, Repr

/-- A pixel by its column and row; row 0 is the top, column 0 the left edge (R31). -/
structure Pixel where
  x : Nat
  y : Nat
  deriving DecidableEq, Repr

/-- Memory: the bytes that differ from the reset image, addresses strictly rising (log entry 10). -/
abbrev Memory := List Host.Cell

/-- The framebuffer: its lit pixels, row by row (log entry 11). -/
abbrev Frame := List Pixel

/-- The parameters an instruction or event reads (R7). No event changes them. Log entry 9. -/
structure Params where
  /-- `STACK_DEPTH`: `none` is unbounded (R29) -/
  stackDepth : Option Nat
  /-- `QUIRKS_RESET` (R7) -/
  quirksReset : Quirks
  /-- `FONT_LO` (R54) -/
  fontLo : FontLo
  deriving DecidableEq, Repr

/-- The events by which the host acts on CORE (R160). -/
inductive Event where
  /-- power-on reset (R180) -/
  | por
  /-- `load_program(bytes)` (R182) -/
  | load (bytes : List Byte)
  /-- the `quirks` write accessor, as the bits of the port (R34, R165) -/
  | setQuirks (bits : Byte)
  /-- `notify_key_released(key)` (R164) -/
  | keyRelease (key : Key)
  /-- `tick_timers()` (R163) -/
  | tick
  /-- `execute()` with the held keys and the random byte given with it (R162) -/
  | step (keys : BitVec 16) (rnd : Byte)
  deriving DecidableEq, Repr

/-- The state of CORE (R20), then the parameters, then the host's side of the port. -/
structure State where
  /-- `V[0]` to `V[15]` (R21) -/
  v : Vector Byte 16
  /-- `I` (R23) -/
  i : Word
  /-- `pc` (R24) -/
  pc : Word
  /-- `STACK`, the top first (R27, log entry 16) -/
  stack : List Word
  /-- `MEM` (R30) -/
  mem : Memory
  /-- `HIRES` (R31) -/
  hires : Bool
  /-- `FB` (R31) -/
  fb : Frame
  /-- `DT` (R32) -/
  dt : Byte
  /-- `ST` (R32) -/
  st : Byte
  /-- `QUIRKS` (R33) -/
  quirks : Quirks
  /-- `WAITING` (R36) -/
  waiting : Bool
  /-- `IGNORE` (R36) -/
  ignore : BitVec 16
  /-- `LASTKEY` (R36) -/
  lastKey : Option Key
  /-- `FAULT`: `none` is `valid = 0` (R38) -/
  fault : Option FaultRecord
  /-- the parameters of R7 (log entry 9) -/
  params : Params
  /-- the model's own: the host's events to come, the next first (log entry 1) -/
  pending : List Event
  /-- the model's own: the held-key mask given with the next STEP (log entry 2) -/
  inKeys : BitVec 16
  /-- the model's own: the random byte given with the next STEP (log entry 2) -/
  inRnd : Byte
  /-- the model's own: how many times the free inputs have been drawn (log entry 2) -/
  inCount : Nat
  /-- the model's own: the result of the last TICK, which the host holds (R163, log entry 13) -/
  tone : Bool
  deriving DecidableEq, Repr

/-- Why the machine stops. -/
inductive Fault where
  /-- Raised by a STEP that finds FAULT latched: it changes nothing and returns the latched fault (R155, U11). SAFE: the
  spec gives no further step but LOAD and POR, which are events of their own. Log entry 4. -/
  | faulted (latched : FaultRecord)
  deriving DecidableEq, Repr

/-- Why an event has no transition. -/
inductive Refusal where
  /-- Raised by an arm of `exec` without a meaning; there is none. SAFE. -/
  | notModelled (mnemonic : String)
  /-- Raised by a LOAD of more than 3584 bytes: refused, no transition (R183, U5). SAFE. Log entry 5. -/
  | loadTooLong (length : Nat)
  /-- Raised by a SET_QUIRKS whose bits are no legal bundle: refused (R165, U6). SAFE. Log entry 5. -/
  | illegalQuirks (bits : Byte)
  deriving DecidableEq, Repr

/-- The default of `QUIRKS_RESET` (R7, R33, D6). -/
def Quirks.default : Quirks :=
  { vfReset := .off, shifting := .operandX, regSaveLoad := .unchanged, jump := .classic, screenWrap := .off,
    scrollStyle := .modern }

/-- The defaults of the parameters (R7, D1, D3, D6). -/
def Params.default : Params := { stackDepth := none, quirksReset := Quirks.default, fontLo := fontLoDefault }

/-- The machine right after POR for given parameters (R7, R40, R180), and a host that has decided on no event yet. -/
def State.resetWith (p : Params) : State :=
  { v := Vector.replicate 16 0
    i := 0
    pc := 0x200
    stack := []
    mem := []
    hires := false
    fb := []
    dt := 0
    st := 0
    quirks := p.quirksReset
    waiting := false
    ignore := 0
    lastKey := none
    fault := none
    params := p
    pending := []
    inKeys := 0
    inRnd := 0
    inCount := 0
    tone := false }

/-- The machine right after POR with the default parameters (R7, R40, R180). -/
def State.reset : State := State.resetWith Params.default

end Sys2Proof.Machine
end

