-- ==== Sys2Proof/Machine/Display.lean ====
section
/-! DEFINITION. The framebuffer as data (R31): reading, toggling, scrolling (R90, R93, R94), the points of a sprite and
the XOR of a sprite (R125, R129). -/

namespace Sys2Proof.Machine

/-- The columns of the active grid (R31). -/
def gridWidth (hires : Bool) : Nat := if hires then 128 else 64

/-- The rows of the active grid (R31). -/
def gridHeight (hires : Bool) : Nat := if hires then 64 else 32

/-- `FB[y][x]`: is the pixel on. -/
def Frame.lit (fb : Frame) (x y : Nat) : Bool := decide (Pixel.mk x y ∈ fb)

/-- Row-major order of pixels: the order in which a frame lists them. -/
abbrev Pixel.before (p q : Pixel) : Prop := p.y < q.y ∨ p.y = q.y ∧ p.x < q.x

/-- The frame with a pixel put where it belongs. -/
def Frame.insert (p : Pixel) : Frame → Frame
  | [] => [p]
  | q :: fb => if p.before q then p :: q :: fb else q :: Frame.insert p fb

/-- `FB[y][x] <- FB[y][x] ^ 1`. -/
def Frame.toggle (p : Pixel) (fb : Frame) : Frame :=
  if p ∈ fb then fb.filter (fun q => q != p) else Frame.insert p fb

/-- Scroll down by `n` rows of a grid of `h` rows: blank rows in at the top, the bottom `n` rows lost (R90). -/
def Frame.scrollDown (h n : Nat) (fb : Frame) : Frame :=
  fb.filterMap fun p => if p.y + n < h then some ⟨p.x, p.y + n⟩ else none

/-- Scroll right by 4 columns of a grid of `w` columns; what passes the edge is lost (R93). -/
def Frame.scrollRight (w : Nat) (fb : Frame) : Frame :=
  fb.filterMap fun p => if p.x + 4 < w then some ⟨p.x + 4, p.y⟩ else none

/-- Scroll left by 4 columns of a grid of `w` columns; what passes the edge is lost (R94). -/
def Frame.scrollLeft (w : Nat) (fb : Frame) : Frame :=
  fb.filterMap fun p => if 4 ≤ p.x ∧ p.x < w then some ⟨p.x - 4, p.y⟩ else none

/-- Where a coordinate of a sprite pixel falls on a side of the grid: itself, wrapped, or nowhere (R125, R129). -/
def place (wrap : Switch) (size z : Nat) : Option Nat :=
  if z < size then some z
  else
    match wrap with
    | .on => some (z % size)
    | .off => none

/-- The eight pixels of a sprite byte, most significant bit first (R125, R126). -/
def byteBits (b : Byte) : List Bool := (List.range 8).map fun c => b.getLsbD (7 - c)

/-- The pixels of a sprite row, the byte at the lower address on the left (R125, R127). -/
def rowBits (row : List Byte) : List Bool := row.flatMap byteBits

/-- The grid pixels one sprite row toggles, from column `col + c` on: the row's 1 bits that fall on the grid. -/
def rowPoints (wrap : Switch) (w col y : Nat) (c : Nat) : List Bool → List Pixel
  | [] => []
  | false :: bits => rowPoints wrap w col y (c + 1) bits
  | true :: bits =>
    match place wrap w (col + c) with
    | some x => ⟨x, y⟩ :: rowPoints wrap w col y (c + 1) bits
    | none => rowPoints wrap w col y (c + 1) bits

/-- The grid pixels the sprite row at row `z` toggles. With the quirk off, a row past the bottom draws nothing; since every
later row is past it too, this is R125's "stop" (R129). -/
def spriteRowPoints (wrap : Switch) (w h col z : Nat) (bits : List Bool) : List Pixel :=
  match place wrap h z with
  | some y => rowPoints wrap w col y 0 bits
  | none => []

/-- The grid pixels a sprite toggles, in the order R125 visits them, from row `row + r` on. -/
def spritePoints (wrap : Switch) (w h col row : Nat) (r : Nat) : List (List Byte) → List Pixel
  | [] => []
  | bytes :: rows =>
    spriteRowPoints wrap w h col (row + r) (rowBits bytes) ++ spritePoints wrap w h col row (r + 1) rows

/-- Toggle the points one after another; the flag says whether any was on when its turn came (R125). -/
def Frame.draw (fb : Frame) : List Pixel → Frame × Bool
  | [] => (fb, false)
  | p :: ps =>
    let rest := Frame.draw (Frame.toggle p fb) ps
    (rest.1, decide (p ∈ fb) || rest.2)

/-- The canonical form: row by row, each pixel once, all on the grid. -/
abbrev Frame.wf (w h : Nat) (fb : Frame) : Prop :=
  fb.Pairwise Pixel.before ∧ ∀ p ∈ fb, p.x < w ∧ p.y < h

end Sys2Proof.Machine
end

