-- ==== Sys2Proof/Machine/Memory.lean ====
section
/-! DEFINITION. Memory as data: what an unlisted address reads as (R51 to R55), reading and writing bytes (R56, R59), and
the canonical form. What unlisted addresses read as depends on the parameter `FONT_LO`. -/

namespace Sys2Proof.Machine

/-- What an unlisted address reads as: the reset image of an empty program, `RESET_IMAGE(empty)`, with the given `FONT_LO`
(R51, R53). -/
def resetByte (font : FontLo) (a : Nat) : Byte :=
  if Config.fontLoBase ≤ a ∧ a < Config.fontLoBase + Config.fontLoLen then font.toList.getD (a - Config.fontLoBase) 0
  else if Config.fontHiBase ≤ a ∧ a < Config.fontHiBase + Config.fontHiLen then Config.fontHi (a - Config.fontHiBase)
  else 0

/-- The byte at an address. -/
def Memory.read (font : FontLo) : Memory → Nat → Byte
  | [], a => resetByte font a
  | (b, w) :: m, a => if b = a then w else Memory.read font m a

/-- The memory with no entry for an address. -/
def Memory.erase (m : Memory) (a : Nat) : Memory := m.filter fun c => c.1 != a

/-- The memory with an entry put where its address belongs. -/
def Memory.insert : Memory → Nat → Byte → Memory
  | [], a, w => [(a, w)]
  | (b, u) :: m, a, w => if a < b then (a, w) :: (b, u) :: m else (b, u) :: Memory.insert m a w

/-- The memory after a byte is written: listed only if it differs from the reset image. -/
def Memory.write (font : FontLo) (m : Memory) (a : Nat) (w : Byte) : Memory :=
  if w = resetByte font a then Memory.erase m a else Memory.insert (Memory.erase m a) a w

/-- Bytes written at consecutive addresses, in increasing order (R59). -/
def Memory.writeList (font : FontLo) (m : Memory) (a : Nat) : List Byte → Memory
  | [] => m
  | w :: ws => Memory.writeList font (Memory.write font m a w) (a + 1) ws

/-- The canonical form: addresses strictly rising, below 4096, and no entry equal to what its address reads as unlisted. -/
abbrev Memory.wf (font : FontLo) (m : Memory) : Prop :=
  m.Pairwise (fun c d => c.1 < d.1) ∧ ∀ c ∈ m, c.1 < Config.memSize ∧ c.2 ≠ resetByte font c.1

/-- The run of `n` bytes from `a` lies in memory: `a + n <= 4096`, an ordinary sum (R56). -/
abbrev inMemory (a n : Nat) : Prop := a + n ≤ Config.memSize

/-- `info` of an OutOfBoundsAccess: `max(a, 4096)`, the lowest out-of-range address of the run (R56, R150). -/
def outOfBoundsInfo (a : Word) : Word := BitVec.ofNat 16 (max a.toNat Config.memSize)

end Sys2Proof.Machine
end

