-- ==== Sys2Proof/Machine/Ops.lean ====
section
/-! DEFINITION. The named operations on the state, through which every instruction and event reads and writes it, and the
taking of a fault (R153). There is no return from a fault (R156). -/

namespace Sys2Proof.Machine

/-- `V[x]` (R9). -/
def State.getV (s : State) (x : Reg) : Byte := s.v[x.val]

/-- `V[x] <- b` (R9). -/
def State.setV (s : State) (x : Reg) (b : Byte) : State := { s with v := s.v.set x.val b }

/-- `I <- a`. -/
def State.setI (s : State) (a : Word) : State := { s with i := a }

/-- `pc <- a`. -/
def State.setPc (s : State) (a : Word) : State := { s with pc := a }

/-- `skip`: `pc <- pc + 2` if the condition holds (R9). -/
def State.skipIf (s : State) (c : Bool) : State := s.setPc (if c then s.pc + 2 else s.pc)

/-- `pc <- pc - 2`: the instruction will be fetched again (R24). -/
def State.rewind (s : State) : State := s.setPc (s.pc - 2)

/-- The stack replaced. -/
def State.setStack (s : State) (l : List Word) : State := { s with stack := l }

/-- `push(a)` (R9, R27). -/
def State.push (s : State) (a : Word) : State := s.setStack (a :: s.stack)

/-- `STACK` holds `STACK_DEPTH` entries (R29); never with the default `unbounded`. -/
def State.stackFull (s : State) : Bool :=
  match s.params.stackDepth with
  | none => false
  | some d => decide (d ≤ s.stack.length)

/-- The byte of memory at an address. -/
def State.readByte (s : State) (a : Nat) : Byte := s.mem.read s.params.fontLo a

/-- `n` bytes of memory from an address on, in increasing order. -/
def State.readBytes (s : State) (a : Nat) : Nat → List Byte
  | 0 => []
  | n + 1 => s.readByte a :: s.readBytes (a + 1) n

/-- `MemRead(a, 2)`: the byte at the lower address is most significant (R9, R57). -/
def State.readWord (s : State) (a : Nat) : Word := wordOfBytes (s.readByte a) (s.readByte (a + 1))

/-- Memory replaced. -/
def State.setMem (s : State) (m : Memory) : State := { s with mem := m }

/-- Bytes stored at consecutive addresses. -/
def State.writeBytes (s : State) (a : Nat) (bs : List Byte) : State := s.setMem (s.mem.writeList s.params.fontLo a bs)

/-- `V[0]` to `V[n-1]`. -/
def State.firstRegs (s : State) (n : Nat) : List Byte := s.v.toList.take n

/-- The registers with `V[k]`, `V[k+1]`, … loaded from a list of bytes. -/
def loadRegs (v : Vector Byte 16) (k : Nat) : List Byte → Vector Byte 16
  | [] => v
  | b :: bs => loadRegs (v.setIfInBounds k b) (k + 1) bs

/-- `V[0]`, `V[1]`, … loaded from a list of bytes. -/
def State.loadFirstRegs (s : State) (bs : List Byte) : State := { s with v := loadRegs s.v 0 bs }

/-- The columns of the grid (R31). -/
def State.width (s : State) : Nat := gridWidth s.hires

/-- The rows of the grid (R31). -/
def State.height (s : State) : Nat := gridHeight s.hires

/-- `FB[y][x]` (R9, R31). -/
def State.pixel (s : State) (x y : Nat) : Bool := s.fb.lit x y

/-- The framebuffer replaced. -/
def State.setFb (s : State) (fb : Frame) : State := { s with fb := fb }

/-- A resolution selected, and the grid cleared (R31, R96, R97). -/
def State.setMode (s : State) (hires : Bool) : State := { s with hires := hires, fb := [] }

/-- `DT <- b`. -/
def State.setDt (s : State) (b : Byte) : State := { s with dt := b }

/-- `ST <- b`. -/
def State.setSt (s : State) (b : Byte) : State := { s with st := b }

/-- The key-wait state replaced (R36). -/
def State.setKeyWait (s : State) (waiting : Bool) (ignore : BitVec 16) (lastKey : Option Key) : State :=
  { s with waiting := waiting, ignore := ignore, lastKey := lastKey }

/-- `QUIRKS <- q` (R165). -/
def State.setQuirks (s : State) (q : Quirks) : State := { s with quirks := q }

/-- `FAULT` latched and `pc` at the faulting instruction (R153). -/
def State.latch (s : State) (ia : Word) (cause : Cause) (info : Word) : State :=
  { s with pc := ia, fault := some ⟨cause, ia, info⟩ }

/-- TAKING A FAULT from inside an instruction: the advance of `pc` is undone, so that `pc = ia`, nothing else has been
changed (every check is made before the first write, R153), and `FAULT <- {1, cause, ia, info}`. `pc` is the already
advanced one, so `ia = pc - 2` (R9). -/
def State.raise (s : State) (cause : Cause) (info : Word) : State := s.latch (s.pc - 2) cause info

/-- `raise OutOfBoundsAccess(max(a, 4096))` for a run that starts at `a` (R56). -/
def State.raiseOutOfBounds (s : State) (a : Word) : State := s.raise .outOfBoundsAccess (outOfBoundsInfo a)

/-- The rest of the host's events. -/
def State.setPending (s : State) (es : List Event) : State := { s with pending := es }

/-- The inputs given with a STEP (R162). -/
def State.setInputs (s : State) (keys : BitVec 16) (rnd : Byte) : State := { s with inKeys := keys, inRnd := rnd }

/-- The inputs of the STEP after this one: free values (R162, log entry 2). -/
def State.drawInputs (s : State) : State :=
  { s with inKeys := Config.freeKeys s.inCount, inRnd := Config.freeRnd s.inCount, inCount := s.inCount + 1 }

/-- The tone signal the host holds (R163). -/
def State.setTone (s : State) (b : Bool) : State := { s with tone := b }

end Sys2Proof.Machine
end

