-- ==== Sys2Proof/Machine/Flags.lean ====
section
/-! DEFINITION. Every value a flag instruction writes to `V[15]` (R22, R109), as a function of the operands. -/

namespace Sys2Proof.Machine

/-- A flag as a register value: 1 or 0. -/
def flag (c : Bool) : Byte := if c then 1 else 0

/-- Carry out of bit 7: `a + b >= 256`, the sum not truncated (R115). -/
def carryFlag (a b : Byte) : Byte := flag (decide (256 ≤ a.toNat + b.toNat))

/-- No borrow in `a - b`: `a >= b`, inclusive (R116, R118, C15). -/
def noBorrowFlag (a b : Byte) : Byte := flag (decide (b.toNat ≤ a.toNat))

/-- The bit a shift right pushes out: `src mod 2` (R117). -/
def lowBitFlag (src : Byte) : Byte := BitVec.ofNat 8 (src.toNat % 2)

/-- The bit a shift left pushes out: `src div 128` (R119). -/
def highBitFlag (src : Byte) : Byte := BitVec.ofNat 8 (src.toNat / 128)

/-- The result of a shift right by 1: `src div 2`, logical (R117). -/
def shiftRight (src : Byte) : Byte := BitVec.ofNat 8 (src.toNat / 2)

/-- The result of a shift left by 1: `(src * 2) mod 256` (R119). -/
def shiftLeft (src : Byte) : Byte := BitVec.ofNat 8 (src.toNat * 2)

end Sys2Proof.Machine
end

