-- ==== Sys2Proof/Machine/Operands.lean ====
section
/-! DEFINITION. The operand forms: what an instruction reads, by its fields and the quirks. -/

namespace Sys2Proof.Machine

/-- The clear of the class-8 prologue: `V[15] <- 0` when `vf_reset` is on, before any operand is read (R110, D7). -/
def State.vfPrologue (s : State) : State :=
  match s.quirks.vfReset with
  | .on => s.setV VF 0
  | .off => s

/-- A class-8 result and then the flag, which overwrites the result when `X = 15` (R115 to R119, D13). -/
def State.setResultAndFlag (s : State) (x : Reg) (result flagValue : Byte) : State := (s.setV x result).setV VF flagValue

/-- The source of a shift: `V[X]` or `V[Y]` by the `shifting` quirk (R117, R119). -/
def State.shiftSource (s : State) (x y : Reg) : Byte :=
  match s.quirks.shifting with
  | .operandX => s.getV x
  | .operandY => s.getV y

/-- A 12-bit immediate zero-extended (R74). -/
def extendNNN (nnn : Addr12) : Word := nnn.zeroExtend 16

/-- An 8-bit value zero-extended (R74). -/
def extendByte (b : Byte) : Word := b.zeroExtend 16

/-- The target of `BNNN`: `V[0] + NNN`, or `V[X] + NN` with `X` the immediate's high nibble, by the `jump` quirk; no mask
to 12 bits (R77, R121, D9). -/
def State.offsetTarget (s : State) (nnn : Addr12) : Word :=
  match s.quirks.jump with
  | .classic => extendByte (s.getV 0) + extendNNN nnn
  | .offsetByX => extendByte (s.getV (toReg (hiNNN nnn))) + extendByte (joinNN (midNNN nnn) (loNNN nnn))

/-- Is the key of this number held: `V[X] <= 15 and keys[V[X]] = 1`; a number above 15 names no key (R130, R131, D22). -/
def keyHeld (keys : BitVec 16) (k : Byte) : Bool := decide (k.toNat ≤ 15) && keys.getLsbD k.toNat

/-- The address of a low-resolution glyph: `0x050 + 5 * V[X]`, `V[X]` used whole (R141, D10). -/
def fontLoAddress (b : Byte) : Word := BitVec.ofNat 16 (Config.fontLoBase + 5 * b.toNat)

/-- The address of a high-resolution glyph: `0x0A0 + 10 * V[X]` (R142, C3, D10). -/
def fontHiAddress (b : Byte) : Word := BitVec.ofNat 16 (Config.fontHiBase + 10 * b.toNat)

/-- Hundreds, tens, units (R143, C2). -/
def bcdDigits (b : Byte) : List Byte :=
  [BitVec.ofNat 8 (b.toNat / 100), BitVec.ofNat 8 (b.toNat / 10 % 10), BitVec.ofNat 8 (b.toNat % 10)]

/-- `ADVANCE(I, X)`: by the number `X + 1` of registers touched, by one more, or not at all (R145, D8). -/
def State.advancedI (s : State) (x : Reg) : Word :=
  match s.quirks.regSaveLoad with
  | .unchanged => s.i
  | .advanceByCount => s.i + BitVec.ofNat 16 (x.val + 1)
  | .advanceByCountPlusOne => s.i + BitVec.ofNat 16 (x.val + 2)

/-- The rows of a sprite at an address: `rows` runs of `bpr` bytes (R125). -/
def State.spriteRows (s : State) (a bpr : Nat) : Nat → List (List Byte)
  | 0 => []
  | rows + 1 => s.readBytes a bpr :: s.spriteRows (a + bpr) bpr rows

/-- The origin column `V[X] mod W`, reduced whatever the quirk (R125). -/
def State.originCol (s : State) (x : Reg) : Nat := (s.getV x).toNat % s.width

/-- The origin row `V[Y] mod H` (R125). -/
def State.originRow (s : State) (y : Reg) : Nat := (s.getV y).toNat % s.height

/-- The grid pixels a draw toggles (R125). -/
def State.drawPoints (s : State) (x y : Reg) (rows bpr : Nat) : List Pixel :=
  spritePoints s.quirks.screenWrap s.width s.height (s.originCol x) (s.originRow y) 0 (s.spriteRows s.i.toNat bpr rows)

/-- `DRAW(rows, 8 * bpr, bpr)` (R125): the origin is read before `V[15]` is cleared (D14), the whole sprite is checked
before any change (D26), and `V[15]` ends as 1 iff a pixel went from on to off. -/
def State.draw (s : State) (x y : Reg) (rows bpr : Nat) : State :=
  if inMemory s.i.toNat (rows * bpr) then
    let drawn := s.fb.draw (s.drawPoints x y rows bpr)
    (s.setFb drawn.1).setV VF (flag drawn.2)
  else s.raiseOutOfBounds s.i

end Sys2Proof.Machine
end

