-- ==== Sys2Proof/Machine/Alu.lean ====
section
/-! DEFINITION. Class 8: register-to-register move, logic, arithmetic and shift (R109 to R119). Every meaning begins with
the prologue (R110): its operands are read from `s.vfPrologue`. -/

namespace Sys2Proof.Machine

/-- `8XY0`: move (R111). -/
def execLdR (x y : Reg) (s : State) : Host.Outcome State Fault Refusal :=
  .next (s.vfPrologue.setV x (s.vfPrologue.getV y))

/-- `8XY1`: OR (R112). -/
def execOrR (x y : Reg) (s : State) : Host.Outcome State Fault Refusal :=
  .next (s.vfPrologue.setV x (s.vfPrologue.getV x ||| s.vfPrologue.getV y))

/-- `8XY2`: AND (R113). -/
def execAndR (x y : Reg) (s : State) : Host.Outcome State Fault Refusal :=
  .next (s.vfPrologue.setV x (s.vfPrologue.getV x &&& s.vfPrologue.getV y))

/-- `8XY3`: exclusive OR (R114). -/
def execXorR (x y : Reg) (s : State) : Host.Outcome State Fault Refusal :=
  .next (s.vfPrologue.setV x (s.vfPrologue.getV x ^^^ s.vfPrologue.getV y))

/-- `8XY4`: add with carry flag (R115). -/
def execAddR (x y : Reg) (s : State) : Host.Outcome State Fault Refusal :=
  .next (s.vfPrologue.setResultAndFlag x (s.vfPrologue.getV x + s.vfPrologue.getV y)
    (carryFlag (s.vfPrologue.getV x) (s.vfPrologue.getV y)))

/-- `8XY5`: subtract with no-borrow flag (R116). -/
def execSub (x y : Reg) (s : State) : Host.Outcome State Fault Refusal :=
  .next (s.vfPrologue.setResultAndFlag x (s.vfPrologue.getV x - s.vfPrologue.getV y)
    (noBorrowFlag (s.vfPrologue.getV x) (s.vfPrologue.getV y)))

/-- `8XY6`: shift right by 1 (R117). -/
def execShr (x y : Reg) (s : State) : Host.Outcome State Fault Refusal :=
  .next (s.vfPrologue.setResultAndFlag x (shiftRight (s.vfPrologue.shiftSource x y))
    (lowBitFlag (s.vfPrologue.shiftSource x y)))

/-- `8XY7`: reverse subtract with no-borrow flag (R118). -/
def execSubn (x y : Reg) (s : State) : Host.Outcome State Fault Refusal :=
  .next (s.vfPrologue.setResultAndFlag x (s.vfPrologue.getV y - s.vfPrologue.getV x)
    (noBorrowFlag (s.vfPrologue.getV y) (s.vfPrologue.getV x)))

/-- `8XYE`: shift left by 1 (R119). -/
def execShl (x y : Reg) (s : State) : Host.Outcome State Fault Refusal :=
  .next (s.vfPrologue.setResultAndFlag x (shiftLeft (s.vfPrologue.shiftSource x y))
    (highBitFlag (s.vfPrologue.shiftSource x y)))

end Sys2Proof.Machine
end

