-- ==== Sys2Proof/Machine/Flow.lean ====
section
/-! DEFINITION. Classes 1 to 7 and 9: jump, call, conditional skips, immediate load and add (R100 to R107). -/

namespace Sys2Proof.Machine

/-- `1NNN`: jump (R100). -/
def execJp (nnn : Addr12) (s : State) : Host.Outcome State Fault Refusal :=
  .next (s.setPc (extendNNN nnn))

/-- `2NNN`: call; StackOverflow on a full stack of finite depth (R29, R101). -/
def execCall (nnn : Addr12) (s : State) : Host.Outcome State Fault Refusal :=
  .next (if s.stackFull then s.raise .stackOverflow 0 else (s.push s.pc).setPc (extendNNN nnn))

/-- `3XNN`: skip if equal to the immediate (R102). -/
def execSeI (x : Reg) (nn : Byte) (s : State) : Host.Outcome State Fault Refusal :=
  .next (s.skipIf (s.getV x == nn))

/-- `4XNN`: skip if not equal to the immediate (R103). -/
def execSneI (x : Reg) (nn : Byte) (s : State) : Host.Outcome State Fault Refusal :=
  .next (s.skipIf (s.getV x != nn))

/-- `5XY0`: skip if the registers are equal (R104). -/
def execSeR (x y : Reg) (s : State) : Host.Outcome State Fault Refusal :=
  .next (s.skipIf (s.getV x == s.getV y))

/-- `9XY0`: skip if the registers differ (R105). -/
def execSneR (x y : Reg) (s : State) : Host.Outcome State Fault Refusal :=
  .next (s.skipIf (s.getV x != s.getV y))

/-- `6XNN`: load immediate (R106). -/
def execLdI (x : Reg) (nn : Byte) (s : State) : Host.Outcome State Fault Refusal :=
  .next (s.setV x nn)

/-- `7XNN`: add immediate modulo 256, no flag (R107). -/
def execAddI (x : Reg) (nn : Byte) (s : State) : Host.Outcome State Fault Refusal :=
  .next (s.setV x (s.getV x + nn))

end Sys2Proof.Machine
end

