-- ==== Sys2Proof/Machine/Index.lean ====
section
/-! DEFINITION. Classes A, B, C: set the address register, jump with offset, random (R120 to R122). -/

namespace Sys2Proof.Machine

/-- `ANNN`: set `I` (R120). -/
def execLdIdx (nnn : Addr12) (s : State) : Host.Outcome State Fault Refusal :=
  .next (s.setI (extendNNN nnn))

/-- `BNNN`: jump with offset, by the `jump` quirk (R121). -/
def execJpOff (nnn : Addr12) (s : State) : Host.Outcome State Fault Refusal :=
  .next (s.setPc (s.offsetTarget nnn))

/-- `CXNN`: `V[X] <- rnd & NN`, `rnd` the free input of this STEP (R122, R162). -/
def execRnd (x : Reg) (nn : Byte) (s : State) : Host.Outcome State Fault Refusal :=
  .next (s.setV x (s.inRnd &&& nn))

end Sys2Proof.Machine
end

