-- ==== Sys2Proof/Machine/KeySkip.lean ====
section
/-! DEFINITION. Class E: skip on key state (R130, R131). The held keys are the input of this STEP (R162). -/

namespace Sys2Proof.Machine

/-- `EX9E`: skip if the key is held (R130). -/
def execSkp (x : Reg) (s : State) : Host.Outcome State Fault Refusal :=
  .next (s.skipIf (keyHeld s.inKeys (s.getV x)))

/-- `EXA1`: skip if the key is not held (R131). -/
def execSknp (x : Reg) (s : State) : Host.Outcome State Fault Refusal :=
  .next (s.skipIf (!keyHeld s.inKeys (s.getV x)))

end Sys2Proof.Machine
end

