-- ==== Sys2Proof/Machine/Misc.lean ====
section
/-! DEFINITION. Class F: timers, key wait, index arithmetic, fonts, BCD, register dump and load (R135 to R146). -/

namespace Sys2Proof.Machine

/-- `FX07`: read the delay timer (R135). -/
def execLdVxDt (x : Reg) (s : State) : Host.Outcome State Fault Refusal :=
  .next (s.setV x s.dt)

/-- The release that satisfies the wait: `LASTKEY`, if it is a key outside `IGNORE` (R137). -/
def State.resolvedKey (s : State) : Option Key :=
  match s.lastKey with
  | some k => if s.ignore.getLsbD k.val then none else some k
  | none => none

/-- `FX0A`: begin the wait, resolve it, or go on waiting (R136, R137). -/
def execLdVxK (x : Reg) (s : State) : Host.Outcome State Fault Refusal :=
  .next (
    if s.waiting then
      match s.resolvedKey with
      | some k => (s.setV x (BitVec.ofNat 8 k.val)).setKeyWait false 0 none
      | none => s.rewind
    else (s.setKeyWait true s.inKeys none).rewind)

/-- `FX15`: set the delay timer (R138). -/
def execLdDtVx (x : Reg) (s : State) : Host.Outcome State Fault Refusal :=
  .next (s.setDt (s.getV x))

/-- `FX18`: set the sound timer (R139). -/
def execLdStVx (x : Reg) (s : State) : Host.Outcome State Fault Refusal :=
  .next (s.setSt (s.getV x))

/-- `FX1E`: add to `I` modulo 65536, no flag (R140). -/
def execAddIdx (x : Reg) (s : State) : Host.Outcome State Fault Refusal :=
  .next (s.setI (s.i + extendByte (s.getV x)))

/-- `FX29`: address of a low-resolution glyph (R141). -/
def execLdF (x : Reg) (s : State) : Host.Outcome State Fault Refusal :=
  .next (s.setI (fontLoAddress (s.getV x)))

/-- `FX30`: address of a high-resolution glyph (R142). -/
def execLdHf (x : Reg) (s : State) : Host.Outcome State Fault Refusal :=
  .next (s.setI (fontHiAddress (s.getV x)))

/-- `FX33`: store the decimal digits of `V[X]` (R143). -/
def execLdB (x : Reg) (s : State) : Host.Outcome State Fault Refusal :=
  .next (
    if inMemory s.i.toNat 3 then s.writeBytes s.i.toNat (bcdDigits (s.getV x))
    else s.raiseOutOfBounds s.i)

/-- `FX55`: store `V[0]` to `V[X]`, then advance `I` by the quirk (R144, R145). -/
def execLdMemVx (x : Reg) (s : State) : Host.Outcome State Fault Refusal :=
  .next (
    if inMemory s.i.toNat (x.val + 1) then
      (s.writeBytes s.i.toNat (s.firstRegs (x.val + 1))).setI (s.advancedI x)
    else s.raiseOutOfBounds s.i)

/-- `FX65`: load `V[0]` to `V[X]`, then advance `I` by the quirk (R145, R146). -/
def execLdVxMem (x : Reg) (s : State) : Host.Outcome State Fault Refusal :=
  .next (
    if inMemory s.i.toNat (x.val + 1) then
      (s.loadFirstRegs (s.readBytes s.i.toNat (x.val + 1))).setI (s.advancedI x)
    else s.raiseOutOfBounds s.i)

end Sys2Proof.Machine
end

