-- ==== Sys2Proof/Machine/Sprite.lean ====
section
/-! DEFINITION. Class D: the sprite rasterizer (R125 to R129). -/

namespace Sys2Proof.Machine

/-- `DXYN`, N = 1 to 15: `DRAW(N, 8, 1)` (R126). -/
def execDrw (x y : Reg) (n : Nibble) (s : State) : Host.Outcome State Fault Refusal :=
  .next (s.draw x y n.toNat 1)

/-- `DXY0`: `DRAW(16, 16, 2)` (R127). -/
def execDrw16 (x y : Reg) (s : State) : Host.Outcome State Fault Refusal :=
  .next (s.draw x y 16 2)

end Sys2Proof.Machine
end

