-- ==== Sys2Proof/Machine/System.lean ====
section
/-! DEFINITION. Class 0: display control, return, halt, resolution (R90 to R97). In every meaning `pc` is already `ia + 2`
(R9, R70). -/

namespace Sys2Proof.Machine

/-- `00CN`: scroll down by N rows (R90). -/
def execScd (n : Nibble) (s : State) : Host.Outcome State Fault Refusal :=
  .next (s.setFb (s.fb.scrollDown s.height n.toNat))

/-- `00E0`: clear the display (R91). -/
def execCls (s : State) : Host.Outcome State Fault Refusal :=
  .next (s.setFb [])

/-- `00EE`: return; StackUnderflow if `STACK` is empty (R92). -/
def execRet (s : State) : Host.Outcome State Fault Refusal :=
  match s.stack with
  | [] => .next (s.raise .stackUnderflow 0)
  | a :: rest => .next ((s.setStack rest).setPc a)

/-- `00FB`: scroll right by 4 columns (R93). -/
def execScr (s : State) : Host.Outcome State Fault Refusal :=
  .next (s.setFb (s.fb.scrollRight s.width))

/-- `00FC`: scroll left by 4 columns (R94). -/
def execScl (s : State) : Host.Outcome State Fault Refusal :=
  .next (s.setFb (s.fb.scrollLeft s.width))

/-- `00FD`: halt, a self-loop (R95). -/
def execExit (s : State) : Host.Outcome State Fault Refusal :=
  .next s.rewind

/-- `00FE`: low resolution, cleared (R96). -/
def execLow (s : State) : Host.Outcome State Fault Refusal :=
  .next (s.setMode false)

/-- `00FF`: high resolution, cleared (R97). -/
def execHigh (s : State) : Host.Outcome State Fault Refusal :=
  .next (s.setMode true)

end Sys2Proof.Machine
end

