-- ==== Sys2Proof/Machine/Events.lean ====
section
/-! DEFINITION. The host's events but STEP, their order when several are requested at once, and the host's observations
(R160 to R168, R180 to R183, R34). -/

namespace Sys2Proof.Machine

/-- POR: every piece of state at its reset value (R40, R180). The parameters and the host's side of the port are not state
of CORE and stay (log entry 14). -/
def State.por (s : State) : State :=
  { State.resetWith s.params with
    pending := s.pending
    inKeys := s.inKeys
    inRnd := s.inRnd
    inCount := s.inCount
    tone := s.tone }

/-- `RESET_IMAGE(bytes)`: the reset image with a program at 0x200 (R53). -/
def resetImage (font : FontLo) (bytes : List Byte) : Memory := Memory.writeList font [] Config.progBase bytes

/-- LOAD of a program that fits (R182): everything fresh but `HIRES`, `FB` and `QUIRKS` (C1, D24). -/
def State.loadProgram (s : State) (bytes : List Byte) : State :=
  { s.por with mem := resetImage s.params.fontLo bytes, hires := s.hires, fb := s.fb, quirks := s.quirks }

/-- LOAD: refused when the image is longer than 3584 bytes (R182, R183). -/
def loadEvent (bytes : List Byte) (s : State) : Host.Outcome State Fault Refusal :=
  if bytes.length ≤ Config.progMax then .next (s.loadProgram bytes) else .refused (.loadTooLong bytes.length)

/-- The place of an event in the order in which requests made at once are served: POR, LOAD, SET_QUIRKS, KEY_RELEASE, TICK,
STEP (R161, D25). -/
def Event.rank : Event → Nat
  | .por => 0
  | .load _ => 1
  | .setQuirks _ => 2
  | .keyRelease _ => 3
  | .tick => 4
  | .step _ _ => 5

/-- Requests made at once, in the order in which they are served (R161, D25); of two of one kind the one named first comes
first. -/
def serviceOrder (requests : List Event) : List Event :=
  (List.range 6).flatMap fun r => requests.filter fun e => e.rank == r

/-- The host makes several requests at once: they are served after those already waiting (R161, D25). -/
def State.request (s : State) (requests : List Event) : State := s.setPending (s.pending ++ serviceOrder requests)

/-- One count down, floored at 0 (R32, R163). -/
def countDown (b : Byte) : Byte := if b = 0 then 0 else b - 1

/-- The result of TICK: `tone` iff `ST` was not 0 before; false while FAULTED (R155, R163). -/
def State.tickResult (s : State) : Bool := s.fault.isNone && s.st != 0

/-- The effect of TICK on CORE: both timers count down; nothing while FAULTED (R155, R163). -/
def State.tickTimers (s : State) : State :=
  if s.fault.isSome then s else (s.setDt (countDown s.dt)).setSt (countDown s.st)

/-- TICK: the timers count down and the host is given the tone signal (R163). -/
def tickEvent (s : State) : Host.Outcome State Fault Refusal :=
  .next (s.tickTimers.setTone s.tickResult)

/-- Does a release count: Waiting, the key not ignored, none recorded yet (R164, D19). -/
def State.releaseCounts (s : State) (k : Key) : Bool := s.waiting && !s.ignore.getLsbD k.val && s.lastKey.isNone

/-- KEY_RELEASE: recorded if it counts; nothing while FAULTED (R155, R164). -/
def keyReleaseEvent (k : Key) (s : State) : Host.Outcome State Fault Refusal :=
  .next (if s.fault.isNone && s.releaseCounts k then s.setKeyWait s.waiting s.ignore (some k) else s)

/-- The quirk bundle the bits of the port carry (R34): `reg_save_load = 3` is illegal, and bit 7 is zero. -/
def Quirks.ofBits (b : Byte) : Option Quirks :=
  let build (r : RegSaveLoad) : Quirks :=
    { vfReset := if b.getLsbD 0 then .on else .off
      shifting := if b.getLsbD 1 then .operandY else .operandX
      regSaveLoad := r
      jump := if b.getLsbD 4 then .offsetByX else .classic
      screenWrap := if b.getLsbD 5 then .on else .off
      scrollStyle := if b.getLsbD 6 then .legacy else .modern }
  if b.getLsbD 7 then none
  else
    match b.getLsbD 3, b.getLsbD 2 with
    | false, false => some (build .unchanged)
    | false, true => some (build .advanceByCount)
    | true, false => some (build .advanceByCountPlusOne)
    | true, true => none

/-- A quirk field as a bit at a place of the port. -/
def portBit (c : Bool) (place : Nat) : Byte := if c then BitVec.ofNat 8 (2 ^ place) else 0

/-- GET_QUIRKS: the bits of the port (R34, R165). -/
def Quirks.toBits (q : Quirks) : Byte :=
  portBit (q.vfReset == .on) 0 ||| portBit (q.shifting == .operandY) 1
    ||| portBit (q.regSaveLoad == .advanceByCount) 2 ||| portBit (q.regSaveLoad == .advanceByCountPlusOne) 3
    ||| portBit (q.jump == .offsetByX) 4 ||| portBit (q.screenWrap == .on) 5 ||| portBit (q.scrollStyle == .legacy) 6

/-- SET_QUIRKS: all fields at once; nothing while FAULTED; refused when the bits are no legal bundle (R155, R165). -/
def setQuirksEvent (bits : Byte) (s : State) : Host.Outcome State Fault Refusal :=
  if s.fault.isSome then .next s
  else
    match Quirks.ofBits bits with
    | some q => .next (s.setQuirks q)
    | none => .refused (.illegalQuirks bits)

/-- DISPLAY: the grid, top row first, each row from its left edge (R166). -/
def State.display (s : State) : List (List Bool) :=
  (List.range s.height).map fun y => (List.range s.width).map fun x => s.pixel x y

/-- The code of a cause (R150). -/
def Cause.code : Cause → Nat
  | .unsupportedOpcode => 1
  | .stackUnderflow => 2
  | .outOfBoundsAccess => 3
  | .stackOverflow => 4

/-- `FAULT` as the host reads it (R38). -/
structure FaultPort where
  valid : Bool
  cause : Nat
  ia : Word
  info : Word
  deriving DecidableEq, Repr

/-- GET_FAULT: while `valid = 0` the other fields are 0 (R38, R167). -/
def State.getFault (s : State) : FaultPort :=
  match s.fault with
  | some f => ⟨true, f.cause.code, f.ia, f.info⟩
  | none => ⟨false, 0, 0, 0⟩

end Sys2Proof.Machine
end

