-- ==== Sys2Proof/Machine/Run.lean ====
section
/-! DEFINITION. The STEP event (R70, R162) and the serving of one event (R160, R161). -/

namespace Sys2Proof.Machine

/-- The instruction word at `pc` (R57, R70). -/
def State.fetchWord (s : State) : Word := s.readWord s.pc.toNat

/-- `pc <- pc + 2`, before the body (R70). -/
def State.advance (s : State) : State := s.setPc (s.pc + 2)

/-- The body of a STEP (R70): the fetch bounds, then the decoding, then the instruction's rule (R154). A fetch that faults
and an illegal word leave `pc` where it was (R153). -/
def stepBody (s : State) : Host.Outcome State Fault Refusal :=
  if inMemory s.pc.toNat 2 then
    match decodeWord s.fetchWord with
    | some i => exec i s.advance
    | none => .next (s.latch s.pc .unsupportedOpcode s.fetchWord)
  else .next (s.latch s.pc .outOfBoundsAccess (outOfBoundsInfo s.pc))

/-- The inputs of the STEP to come are drawn once this one is done (log entry 2). -/
def withFreshInputs : Host.Outcome State Fault Refusal → Host.Outcome State Fault Refusal
  | .next s => .next s.drawInputs
  | .fault r => .fault r
  | .refused r => .refused r

/-- STEP with the inputs on the ports (R162): a FAULTED machine changes nothing and returns the latched fault (R155). -/
def stepEvent (s : State) : Host.Outcome State Fault Refusal :=
  match s.fault with
  | some f => .fault (.faulted f)
  | none => withFreshInputs (stepBody s)

/-- One event (R160). -/
def serve (e : Event) (s : State) : Host.Outcome State Fault Refusal :=
  match e with
  | .por => .next s.por
  | .load bytes => loadEvent bytes s
  | .setQuirks bits => setQuirksEvent bits s
  | .keyRelease k => keyReleaseEvent k s
  | .tick => tickEvent s
  | .step keys rnd => stepEvent (s.setInputs keys rnd)

/-- The next event: the first of those the host has decided on, else a STEP with the inputs on the ports (log entry 1). -/
def serveNext (s : State) : Host.Outcome State Fault Refusal :=
  match s.pending with
  | [] => stepEvent s
  | e :: rest => serve e (s.setPending rest)

/-- Is the event a STEP. -/
def Event.isStep : Event → Bool
  | .step _ _ => true
  | .por => false
  | .load _ => false
  | .setQuirks _ => false
  | .keyRelease _ => false
  | .tick => false

/-- Where a STEP can fetch: `pc`, or 0x200 if no word lies at `pc` (R25). -/
def State.fetchablePc (s : State) : Word := if inMemory s.pc.toNat 2 then s.pc else 0x200

/-- A state whose next event is a STEP that fetches the given table word: the word stored at `pc`, and, only where they
would keep the next STEP from fetching it, the events before the next STEP dropped, a latched fault cleared, a `pc` without a
word at it moved to 0x200. It stands for a LOAD (log entry 15). -/
def State.placeTableWord (s : State) (nbits w : Nat) : State :=
  let t := { s with
    pending := s.pending.dropWhile fun e => !e.isStep
    fault := none
    pc := s.fetchablePc }
  t.writeBytes t.pc.toNat [firstByte (tableWord nbits w), secondByte (tableWord nbits w)]

end Sys2Proof.Machine
end

