-- ==== Sys2Proof/Machine/Step.lean ====
section
/-! DEFINITION. One step of the machine: one event of the host (R160, R161). -/

namespace Sys2Proof.Machine

/-- One step: serve the next event. -/
def step (s : State) : Host.Outcome State Fault Refusal := serveNext s

/-- The state with a table word stored where the next STEP fetches (log entry 15). -/
def State.withFetchWord (s : State) (nbits w : Nat) : State := s.placeTableWord nbits w

end Sys2Proof.Machine
end

