-- ==== Sys2Proof/Safety.lean ====
section
/-! DEFINITION. What claims are stated in terms of: the end-of-run predicates (D35), frames, the invariant, and the spec's
tables over the whole machine (R20, R22, R151), written apart from the meanings. -/

namespace Sys2Proof.Machine

/-- `FAULTED` (R155, D35): not a successful end. -/
def State.isFaulted (s : State) : Bool := s.fault.isSome

/-- `SELF_LOOP`: the word at `pc` is `00FD` (R95, D35). -/
def State.selfLoop (s : State) : Bool := decide (inMemory s.pc.toNat 2) && s.fetchWord == 0x00FD

/-- The parts of the state a frame names. -/
inductive Part where
  | reg (x : Reg)
  | index
  | pc
  | stack
  | bytes (first count : Nat)
  | hires
  | pixels
  | delay
  | sound
  | keyWait
  | quirks
  | fault
  /-- the host's side of the port: events to come, inputs, tone -/
  | host
  deriving DecidableEq, Repr

/-- An address lies in one of the runs of bytes listed. -/
def Part.coversAddress (l : List Part) (b : Nat) : Prop := ∃ a n, Part.bytes a n ∈ l ∧ a ≤ b ∧ b < a + n

/-- `t` agrees with `s` on every part of the state but those listed; the parameters never change. Memory and framebuffer are
compared through their reads, one byte and one pixel at a time. -/
structure KeptExcept (l : List Part) (s t : State) : Prop where
  regs : ∀ x, Part.reg x ∉ l → t.getV x = s.getV x
  index : Part.index ∉ l → t.i = s.i
  pc : Part.pc ∉ l → t.pc = s.pc
  stack : Part.stack ∉ l → t.stack = s.stack
  memory : ∀ b, ¬ Part.coversAddress l b → t.readByte b = s.readByte b
  hires : Part.hires ∉ l → t.hires = s.hires
  pixels : Part.pixels ∉ l → ∀ x y, t.pixel x y = s.pixel x y
  delay : Part.delay ∉ l → t.dt = s.dt
  sound : Part.sound ∉ l → t.st = s.st
  keyWait : Part.keyWait ∉ l → t.waiting = s.waiting ∧ t.ignore = s.ignore ∧ t.lastKey = s.lastKey
  quirks : Part.quirks ∉ l → t.quirks = s.quirks
  fault : Part.fault ∉ l → t.fault = s.fault
  host : Part.host ∉ l →
    t.pending = s.pending ∧ t.inKeys = s.inKeys ∧ t.inRnd = s.inRnd ∧ t.inCount = s.inCount ∧ t.tone = s.tone
  params : t.params = s.params

/-- The next event is a STEP: `u` is the state in which its inputs stand on the ports and the event is taken (R162). -/
def StepIsNext (s u : State) : Prop :=
  (s.pending = [] ∧ u = s) ∨
    ∃ keys rnd es, s.pending = .step keys rnd :: es ∧ u = (s.setPending es).setInputs keys rnd

/-- The word at `pc` is an `FX0A` (R78). -/
def State.keyWaitAtPc (s : State) : Prop := inMemory s.pc.toNat 2 ∧ s.fetchWord &&& 0xF0FF = 0xF00A

/-- The invariant of the machine: what R25, R29, R31, R37, R38 and R153 say of every state a run reaches, and the canonical
forms of memory and framebuffer. -/
structure State.Inv (s : State) : Prop where
  /-- memory is in canonical form (log entry 10) -/
  memory : s.mem.wf s.params.fontLo
  /-- the framebuffer is in canonical form on the active grid (R31, log entry 11) -/
  frame : s.fb.wf s.width s.height
  /-- `pc` never exceeds 0x10FE (R25) -/
  pcRange : s.pc.toNat ≤ 0x10FE
  /-- a return address is at most 4096 (R25, R101) -/
  stackRange : ∀ a ∈ s.stack, a.toNat ≤ 4096
  /-- the stack is no deeper than `STACK_DEPTH` (R29) -/
  stackDepth : ∀ d, s.params.stackDepth = some d → s.stack.length ≤ d
  /-- when `WAITING = 0`, `IGNORE = 0` and `LASTKEY = none` (R37) -/
  idle : s.waiting = false → s.ignore = 0 ∧ s.lastKey = none
  /-- when `WAITING = 1`, `pc` is the address of the `FX0A` that began the wait (R37) -/
  waitingAt : s.waiting = true → s.keyWaitAtPc
  /-- `LASTKEY` is a key whose bit in `IGNORE` is 0 (R37) -/
  lastKey : ∀ k, s.lastKey = some k → s.ignore.getLsbD k.val = false
  /-- a latched fault holds the address at which `pc` stands (R153) -/
  faultAt : ∀ f, s.fault = some f → f.ia = s.pc

/-- A class-8 operand: read after the clear of the prologue, so `V[15]` reads as 0 when `vf_reset` is on (R110, D7). -/
def State.aluOperand (s : State) (x : Reg) : Byte := if s.quirks.vfReset = .on ∧ x = VF then 0 else s.getV x

/-- What class 8 leaves in `V[15]` when the instruction itself writes no flag there (R22, R110). -/
def State.vfAfterPrologue (s : State) : Byte := if s.quirks.vfReset = .on then 0 else s.getV VF

/-- What R150 and R153 make of the state when an instruction raises a fault: `pc = ia`, `FAULT` latched, nothing else. -/
def Raises (cause : Cause) (info : Word) (s t : State) : Prop :=
  t.pc = s.pc - 2 ∧ t.fault = some ⟨cause, s.pc - 2, info⟩ ∧ KeptExcept [.pc, .fault] s t

/-- Bit `c` of row `r` of a sprite of `bpr` bytes a row at `I`, bit 0 of the count being the leftmost (R126, R127). -/
def State.spriteBit (s : State) (bpr r c : Nat) : Bool :=
  (s.readByte (s.i.toNat + r * bpr + c / 8)).getLsbD (7 - c % 8)

/-- A coordinate of a sprite pixel falls on coordinate `q` of a side of the grid: itself when inside, wrapped when outside
and the quirk is on (R129). -/
def Lands (wrap : Switch) (size z q : Nat) : Prop := (z < size ∧ q = z) ∨ (size ≤ z ∧ wrap = .on ∧ q = z % size)

/-- A 1 bit of the sprite falls on pixel `(px, py)` of the grid (R125, R129). -/
def State.SpriteCovers (s : State) (x y : Reg) (rows bpr px py : Nat) : Prop :=
  ∃ r c, r < rows ∧ c < 8 * bpr ∧ s.spriteBit bpr r c = true ∧
    Lands s.quirks.screenWrap s.width ((s.getV x).toNat % s.width + c) px ∧
    Lands s.quirks.screenWrap s.height ((s.getV y).toNat % s.height + r) py

/-- What a draw does when the sprite lies in memory (R125): every covered pixel toggles, `V[15]` is 1 iff a covered pixel
was on. -/
def Draws (x y : Reg) (rows bpr : Nat) (s t : State) : Prop :=
  (∀ px py, t.pixel px py = true ↔
    (s.pixel px py = true ∧ ¬ s.SpriteCovers x y rows bpr px py) ∨
      (s.pixel px py = false ∧ s.SpriteCovers x y rows bpr px py)) ∧
  ((t.getV VF = 1 ∧ ∃ px py, s.SpriteCovers x y rows bpr px py ∧ s.pixel px py = true) ∨
    (t.getV VF = 0 ∧ ∀ px py, s.SpriteCovers x y rows bpr px py → s.pixel px py = false)) ∧
  KeptExcept [.pixels, .reg VF] s t

/-- R145 in numbers: how far `I` moves. -/
def State.advanceCount (s : State) (x : Reg) : Nat :=
  match s.quirks.regSaveLoad with
  | .unchanged => 0
  | .advanceByCount => x.val + 1
  | .advanceByCountPlusOne => x.val + 2

/-- What an address reads as once a run of bytes has been stored from `I` on (R59). -/
def State.overlaid (s : State) (stored : List Byte) (a : Nat) : Byte :=
  if s.i.toNat ≤ a ∧ a < s.i.toNat + stored.length then stored.getD (a - s.i.toNat) 0 else s.readByte a

/-- `FAULT` as the host reads it for a fault or for none, the codes as R150 numbers them (R38). -/
def portOf : Option FaultRecord → FaultPort
  | none => ⟨false, 0, 0, 0⟩
  | some ⟨.unsupportedOpcode, ia, info⟩ => ⟨true, 1, ia, info⟩
  | some ⟨.stackUnderflow, ia, info⟩ => ⟨true, 2, ia, info⟩
  | some ⟨.outOfBoundsAccess, ia, info⟩ => ⟨true, 3, ia, info⟩
  | some ⟨.stackOverflow, ia, info⟩ => ⟨true, 4, ia, info⟩

/-- The table of R151 for the instruction's own check: the fault an instruction raises in a state whose `pc` is already
advanced. -/
def instrFault (i : Instr) (s : State) : Option FaultRecord :=
  let outOfBounds (n : Nat) : Option FaultRecord :=
    if s.i.toNat + n ≤ 4096 then none
    else some ⟨.outOfBoundsAccess, s.pc - 2, BitVec.ofNat 16 (max s.i.toNat 4096)⟩
  match i with
  | .ret => if s.stack = [] then some ⟨.stackUnderflow, s.pc - 2, 0⟩ else none
  | .drw _ _ n => outOfBounds n.toNat
  | .drw16 _ _ => outOfBounds 32
  | .ldB _ => outOfBounds 3
  | .ldMemVx x => outOfBounds (x.val + 1)
  | .ldVxMem x => outOfBounds (x.val + 1)
  | .call _ =>
    match s.params.stackDepth with
    | some d => if d ≤ s.stack.length then some ⟨.stackOverflow, s.pc - 2, 0⟩ else none
    | none => none
  | .scd _ | .cls | .scr | .scl | .exit | .low | .high => none
  | .jp _ | .seI _ _ | .sneI _ _ | .seR _ _ | .sneR _ _ | .ldI _ _ | .addI _ _ => none
  | .ldR _ _ | .orR _ _ | .andR _ _ | .xorR _ _ | .addR _ _ | .sub _ _ | .shr _ _ | .subn _ _ | .shl _ _ => none
  | .ldIdx _ | .jpOff _ | .rnd _ _ | .skp _ | .sknp _ => none
  | .ldVxDt _ | .ldVxK _ | .ldDtVx _ | .ldStVx _ | .addIdx _ | .ldF _ | .ldHf _ => none

/-- The table of R151 for a whole STEP, in the order of R154: fetch bounds, decode, the instruction's own check. -/
def stepFault (s : State) : Option FaultRecord :=
  if s.pc.toNat + 2 ≤ 4096 then
    match decodeWord s.fetchWord with
    | some i => instrFault i s.advance
    | none => some ⟨.unsupportedOpcode, s.pc, s.fetchWord⟩
  else some ⟨.outOfBoundsAccess, s.pc, BitVec.ofNat 16 (max s.pc.toNat 4096)⟩

end Sys2Proof.Machine

namespace Sys2Proof

/-- The instructions R20 names as writers of `STACK`. -/
def Instr.writesStack : Instr → Prop
  | .call _ | .ret => True
  | _ => False

/-- The instructions R59 names as storing to `MEM`. -/
def Instr.storesToMemory : Instr → Prop
  | .ldB _ | .ldMemVx _ => True
  | _ => False

/-- The instructions R20 names as writers of `HIRES`. -/
def Instr.writesMode : Instr → Prop
  | .low | .high => True
  | _ => False

/-- The instructions R20 names as writers of `FB`. -/
def Instr.writesFrame : Instr → Prop
  | .cls | .scd _ | .scr | .scl | .low | .high | .drw _ _ _ | .drw16 _ _ => True
  | _ => False

/-- The instructions R23 names as writers of `I`. -/
def Instr.writesIndex : Instr → Prop
  | .ldIdx _ | .addIdx _ | .ldF _ | .ldHf _ | .ldMemVx _ | .ldVxMem _ => True
  | _ => False

/-- The register an instruction names as its destination, or the run it loads, holds register `r`. -/
def Instr.namesAsDestination (r : Reg) : Instr → Prop
  | .ldI x _ | .addI x _ | .rnd x _ | .ldVxDt x | .ldVxK x => x = r
  | .ldR x _ | .orR x _ | .andR x _ | .xorR x _ | .addR x _ | .sub x _ | .shr x _ | .subn x _ | .shl x _ => x = r
  | .ldVxMem x => r ≤ x
  | _ => False

/-- The class-8 instructions (R110). -/
def Instr.isClass8 : Instr → Prop
  | .ldR _ _ | .orR _ _ | .andR _ _ | .xorR _ _ | .addR _ _ | .sub _ _ | .shr _ _ | .subn _ _ | .shl _ _ => True
  | _ => False

/-- The instructions that write `V[15]` as a flag, whatever the quirks (R22). -/
def Instr.writesFlag : Instr → Prop
  | .addR _ _ | .sub _ _ | .shr _ _ | .subn _ _ | .shl _ _ | .drw _ _ _ | .drw16 _ _ => True
  | _ => False

end Sys2Proof

namespace Sys2Proof.Machine

/-- Memory is `RESET_IMAGE(bytes)` (R51, R53): the two fonts, the bytes of the program, and zero everywhere else. -/
structure State.HoldsImage (bytes : List Byte) (t : State) : Prop where
  fontLo : ∀ k : Fin 80, t.readByte (0x050 + k.val) = t.params.fontLo[k.val]
  fontHi : ∀ k, k < 160 → t.readByte (0x0A0 + k) = Config.fontHi k
  program : ∀ k b, bytes[k]? = some b → t.readByte (0x200 + k) = b
  zero : ∀ a, ¬ (0x050 ≤ a ∧ a ≤ 0x13F) → ¬ (0x200 ≤ a ∧ a < 0x200 + bytes.length) → t.readByte a = 0

/-- What both resets leave (R40, R180, R182): registers, `I`, `pc`, stack, timers, key-wait state and fault latch. -/
structure State.Fresh (t : State) : Prop where
  regs : ∀ x, t.getV x = 0
  index : t.i = 0
  pc : t.pc = 0x200
  stack : t.stack = []
  delay : t.dt = 0
  sound : t.st = 0
  idle : t.waiting = false ∧ t.ignore = 0 ∧ t.lastKey = none
  noFault : t.fault = none

/-- What POR leaves beyond that (R40, R180): the reset image, low resolution, a blank display, `QUIRKS_RESET`. -/
structure State.PoweredOn (t : State) : Prop extends t.Fresh where
  image : t.HoldsImage []
  lowRes : t.hires = false
  blank : ∀ x y, t.pixel x y = false
  quirks : t.quirks = t.params.quirksReset

/-- The outcome with its next state changed by a function. -/
def mapNext (f : State → State) : Host.Outcome State Fault Refusal → Host.Outcome State Fault Refusal
  | .next s => .next (f s)
  | .fault r => .fault r
  | .refused r => .refused r

/-- The state with another random byte on the port. -/
def State.withRnd (s : State) (r : Byte) : State := { s with inRnd := r }

/-- The state with another held-key mask on the port. -/
def State.withKeys (s : State) (k : BitVec 16) : State := { s with inKeys := k }

/-- The state with the reserved quirk field changed. -/
def State.withScrollStyle (s : State) (z : ScrollStyle) : State := { s with quirks := { s.quirks with scrollStyle := z } }

end Sys2Proof.Machine
end

