-- ==== Sys2Proof/Certificates/Slice0/Obligations.lean ====
section
/-! DEFINITION. The statements about the model. Where `exec i s` stands, `pc` of `s` is already advanced past the
instruction, so that the instruction's own address is `s.pc - 2` (R9, R70). -/

open Sys2Proof Sys2Proof.Machine

/-! ## Encoding -/

/-- Decoding the two bytes of any well-formed instruction gives the instruction back (R72, R73, R78). -/
def Obligations.DecodeOfEncodeIsTheInstruction : Prop :=
  ∀ i : Instr, i.wellFormed = true → decode (encode i) = .instr i

/-- Every bit of every instruction word is decoded (R82, which the spec derives from R78): the instruction read from a word
determines the whole word, and is well-formed. -/
def Obligations.DecodingDropsNoBit : Prop :=
  ∀ (w : Word) (i : Instr), decodeWord w = some i → i.wellFormed = true ∧ encodeWord i = w

/-- A word decodes to an instruction iff it matches a row of the opcode map, `(opcode & mask) = match`; then it is an
instruction of that row, but that `DXY0` wins over `DXYN`, the only overlap (R75, R76, R78). -/
def Obligations.DecodingFollowsTheOpcodeMap : Prop :=
  (∀ (w : Word) (i : Instr), decodeWord w = some i → w &&& i.row.mask = i.row.bits) ∧
  (∀ (w : Word) (j : Instr), w &&& j.row.mask = j.row.bits →
    ∃ i, decodeWord w = some i ∧
      (i.row = j.row ∨ (i.row = ⟨0xF00F, 0xD000⟩ ∧ j.row = ⟨0xF000, 0xD000⟩)))

/-- Words written out from the encodings of R90 to R146 decode to their instructions, and illegal neighbours are rejected
by name (R79). -/
def Obligations.SampleWordsDecode : Prop :=
  decode [0x00, 0xC5] = .instr (.scd 5) ∧
  decode [0x2A, 0xBC] = .instr (.call 0xABC) ∧
  decode [0x3A, 0x42] = .instr (.seI 10 0x42) ∧
  decode [0x9A, 0xB0] = .instr (.sneR 10 11) ∧
  decode [0x8F, 0x1E] = .instr (.shl 15 1) ∧
  decode [0xB2, 0xFE] = .instr (.jpOff 0x2FE) ∧
  decode [0xD0, 0x12] = .instr (.drw 0 1 2) ∧
  decode [0xD0, 0x10] = .instr (.drw16 0 1) ∧
  decode [0xE2, 0xA1] = .instr (.sknp 2) ∧
  decode [0xF3, 0x55] = .instr (.ldMemVx 3) ∧
  decode [0x01, 0xE0] = .unsupported 0x01E0 ∧
  decode [0x51, 0x21] = .unsupported 0x5121 ∧
  decode [0x80, 0x08] = .unsupported 0x8008 ∧
  decode [0xF0, 0x75] = .unsupported 0xF075 ∧
  decode [0x00] = .tooShort

/-! ## The STEP event and faults -/

/-- A step runs the decoded instruction (R70, R162): on a machine with no fault latched whose next event is a STEP, when the
two bytes at `pc` decode to `i`, the step is `exec i` on the state with that STEP's inputs on the ports and `pc` advanced by
2; after it the free inputs of the next STEP are drawn. That an event list stands in the state, and that the inputs are drawn
after the STEP, is the model's choice (log entries 1, 2). -/
def Obligations.StepRunsTheDecodedInstruction : Prop :=
  ∀ (s u : State) (i : Instr), s.fault = none → StepIsNext s u → inMemory s.pc.toNat 2 →
    decode [s.readByte s.pc.toNat, s.readByte (s.pc.toNat + 1)] = .instr i →
    step s = withFreshInputs (exec i (u.setPc (s.pc + 2)))

/-- A fetch at `pc >= 4095` faults with OutOfBoundsAccess, code 3, `info = max(pc, 4096)`, and changes nothing else (R25,
R70, R153; decisions D17, D18). -/
def Obligations.FetchOutOfBoundsFaults : Prop :=
  ∀ s u : State, s.fault = none → StepIsNext s u → 4095 ≤ s.pc.toNat →
    ∃ t, step s = .next t ∧ t.getFault = ⟨true, 3, s.pc, BitVec.ofNat 16 (max s.pc.toNat 4096)⟩ ∧
      KeptExcept [.fault, .host] s t

/-- A STEP that fetches an illegal word faults with UnsupportedOpcode, code 1, `info` the word, and changes nothing else
(R80, R153; decisions D17, D18). -/
def Obligations.IllegalWordFaults : Prop :=
  ∀ s u : State, s.fault = none → StepIsNext s u → inMemory s.pc.toNat 2 → decodeWord s.fetchWord = none →
    ∃ t, step s = .next t ∧ t.getFault = ⟨true, 1, s.pc, s.fetchWord⟩ ∧ KeptExcept [.fault, .host] s t

/-- While FAULTED (R155, decision D18) a STEP returns the latched fault, TICK returns false, and TICK, KEY_RELEASE and
SET_QUIRKS change nothing of CORE. That a STEP on a FAULTED machine ends the run as Outcome.fault is the model's choice (log
entry 4). -/
def Obligations.FaultedMachineIsFrozen : Prop :=
  ∀ (s : State) (f : FaultRecord), s.fault = some f →
    (∀ u, StepIsNext s u → step s = .fault (.faulted f)) ∧
    (∀ es, s.pending = .tick :: es →
      ∃ t, step s = .next t ∧ t.tone = false ∧ t.pending = es ∧ KeptExcept [.host] s t) ∧
    (∀ k es, s.pending = .keyRelease k :: es → ∃ t, step s = .next t ∧ t.pending = es ∧ KeptExcept [.host] s t) ∧
    (∀ bits es, s.pending = .setQuirks bits :: es → ∃ t, step s = .next t ∧ t.pending = es ∧ KeptExcept [.host] s t)

/-- The state made by withFetchWord runs the word given in its very next step; where `s` could fetch already, nothing but the
two bytes at `pc` and the host's events changed. The function is the model's own (log entry 15). -/
def Obligations.WithFetchWordRunsTheWord : Prop :=
  ∀ (s : State) (w : Nat) (i : Instr), decodeTableWord 16 w = some i →
    (∃ u, StepIsNext (s.withFetchWord 16 w) u ∧
      step (s.withFetchWord 16 w) = withFreshInputs (exec i (u.setPc ((s.withFetchWord 16 w).pc + 2)))) ∧
    (s.fault = none → inMemory s.pc.toNat 2 → KeptExcept [.bytes s.pc.toNat 2, .host] s (s.withFetchWord 16 w))

/-- In every state, with every operand, each instruction answers a next state (R81), one with a fault latched where it raises
one (R153). That a faulting instruction answers a next state, and only the STEP after it ends the run, is the model's choice
(log entry 4). -/
def Obligations.EveryInstructionAnswersANextState : Prop :=
  ∀ (i : Instr) (s : State), ∃ t, exec i s = .next t

/-- The faults are exactly those of the table of R151, in the order of R154: after a STEP on a machine with no fault latched,
FAULT holds what `stepFault` says, and nothing where that says none; the host reads it under the codes of R150, and reads zeros
while nothing is latched (R38, R167; decisions D17, D18, D26). That the faulting STEP answers a next state is the model's choice
(log entry 4). -/
def Obligations.FaultsAreExactlyThoseListed : Prop :=
  ∀ s u : State, s.fault = none → StepIsNext s u →
    ∃ t, step s = .next t ∧ t.fault = stepFault s ∧ t.getFault = portOf (stepFault s)

/-- Faults are precise (R153, decision D17): a STEP that latches a fault leaves everything else as it was, `pc` at the
faulting instruction included. -/
def Obligations.FaultingStepChangesNothingElse : Prop :=
  ∀ (s u t : State) (f : FaultRecord), s.fault = none → StepIsNext s u → step s = .next t → t.fault = some f →
    f.ia = s.pc ∧ KeptExcept [.fault, .host] s t

/-! ## Whole-machine rules -/

/-- Each piece of state is written only by the instructions R20, R23, R32 and R59 name; `QUIRKS`, the parameters and the
host's side of the port by none (R33, R159). -/
def Obligations.StateIsWrittenOnlyByItsInstructions : Prop :=
  ∀ (i : Instr) (s t : State), exec i s = .next t →
    (¬ i.storesToMemory → ∀ a, t.readByte a = s.readByte a) ∧
    (¬ i.writesStack → t.stack = s.stack) ∧
    (¬ i.writesMode → t.hires = s.hires) ∧
    (¬ i.writesFrame → ∀ x y, t.pixel x y = s.pixel x y) ∧
    (¬ i.writesIndex → t.i = s.i) ∧
    ((∀ x, i ≠ .ldDtVx x) → t.dt = s.dt) ∧
    ((∀ x, i ≠ .ldStVx x) → t.st = s.st) ∧
    ((∀ x, i ≠ .ldVxK x) → t.waiting = s.waiting ∧ t.ignore = s.ignore ∧ t.lastKey = s.lastKey) ∧
    t.quirks = s.quirks ∧ t.params = s.params ∧
    t.pending = s.pending ∧ t.inKeys = s.inKeys ∧ t.inRnd = s.inRnd ∧ t.inCount = s.inCount ∧ t.tone = s.tone

/-- A general register changes only in an instruction that names it as destination; `V[15]` moreover in the instructions
that write it as a flag, and in class 8 under the vf-reset quirk (R21, R22). -/
def Obligations.RegistersAreWrittenOnlyAsNamed : Prop :=
  ∀ (i : Instr) (s t : State) (r : Reg), exec i s = .next t → ¬ i.namesAsDestination r →
    (r = VF → ¬ i.writesFlag ∧ ¬ (i.isClass8 ∧ s.quirks.vfReset = .on)) → t.getV r = s.getV r

/-- `rnd` is read by `CXNN` and by nothing else (R162): with another byte on the port every other instruction does the
same. -/
def Obligations.RandomByteIsReadOnlyByRnd : Prop :=
  ∀ (i : Instr) (s : State) (r : Byte), (∀ x nn, i ≠ .rnd x nn) →
    exec i (s.withRnd r) = mapNext (fun t => t.withRnd r) (exec i s)

/-- `keys` is read by `EX9E`, `EXA1` and the first execution of an `FX0A`, and by nothing else (R162). -/
def Obligations.HeldKeysAreReadOnlyByKeyInstructions : Prop :=
  ∀ (i : Instr) (s : State) (k : BitVec 16), (∀ x, i ≠ .skp x) → (∀ x, i ≠ .sknp x) →
    ((∃ x, i = .ldVxK x) → s.waiting = true) →
    exec i (s.withKeys k) = mapNext (fun t => t.withKeys k) (exec i s)

/-- The reserved switch has no effect (R34, U2): every instruction does the same whatever `scroll_style` is. -/
def Obligations.ScrollStyleHasNoEffect : Prop :=
  ∀ (i : Instr) (s : State) (z : ScrollStyle),
    exec i (s.withScrollStyle z) = mapNext (fun t => t.withScrollStyle z) (exec i s)

/-- The invariant of the machine (R25, R29, R31, R37, R38, R153 and the canonical forms, log entries 10 and 11) is kept by
every step, whatever event it serves. -/
def Obligations.StepKeepsTheInvariant : Prop :=
  ∀ s t : State, s.Inv → step s = .next t → t.Inv

/-- The reset state meets the invariant. -/
def Obligations.ResetMeetsTheInvariant : Prop := State.reset.Inv

/-! ## The host's events and observations -/

/-- POR puts every piece of state at its reset value, memory at `RESET_IMAGE(empty)` (R40, R53, R180; the values the source does
not give are the spec's own decisions D1 to D6, log entries 6, 7, 9), whatever the parameters; State.reset is that state for the
default parameters, its quirks named one by one (R33, R34). Events to come and parameters stay (log entry 14). -/
def Obligations.PowerOnResetsEverything : Prop :=
  (∀ p, (State.resetWith p).PoweredOn ∧ (State.resetWith p).params = p) ∧
  State.reset = State.resetWith Params.default ∧ State.reset.params.stackDepth = none ∧
  State.reset.quirks = ⟨.off, .operandX, .unchanged, .classic, .off, .modern⟩ ∧ State.reset.quirks.toBits = 0x00 ∧
  ∀ (s : State) (es : List Event), s.pending = .por :: es →
    ∃ t, step s = .next t ∧ t.PoweredOn ∧ t.params = s.params ∧ t.pending = es

/-- LOAD of at most 3584 bytes (R182, decision D24): all fresh (the values the source does not give are decisions D4, log entry
6), memory `RESET_IMAGE(bytes)` (R53); `HIRES`, `FB` and `QUIRKS` are not touched; parameters and events to come stay, the model's
choice (log entry 14). A longer LOAD is refused (R183, decision D33). -/
def Obligations.LoadStartsTheProgramFresh : Prop :=
  ∀ (s : State) (bytes : List Byte) (es : List Event), s.pending = .load bytes :: es →
    (bytes.length ≤ 3584 →
      ∃ t, step s = .next t ∧ t.Fresh ∧ t.HoldsImage bytes ∧
        t.hires = s.hires ∧ (∀ x y, t.pixel x y = s.pixel x y) ∧ t.quirks = s.quirks ∧
        t.params = s.params ∧ t.pending = es) ∧
    (3584 < bytes.length → step s = .refused (.loadTooLong bytes.length))

/-- Requests made at once are all served, each once: the PORs, then the LOADs, the SET_QUIRKS, the KEY_RELEASEs, the TICKs, the
STEPs among them (R161, decision D25). That they come after the events already waiting, and that requests of one kind keep the
order in which they are named, is the model's choice (log entry 1). Nothing of CORE changes by asking. -/
def Obligations.ConcurrentRequestsAreServedInOrder : Prop :=
  ∀ (s : State) (requests : List Event),
    ∃ served, (s.request requests).pending = s.pending ++ served ∧ served.Perm requests ∧
      served =
        requests.filter (fun e => e matches .por) ++ requests.filter (fun e => e matches .load _) ++
        requests.filter (fun e => e matches .setQuirks _) ++ requests.filter (fun e => e matches .keyRelease _) ++
        requests.filter (fun e => e matches .tick) ++ requests.filter (fun e => e matches .step _ _) ∧
      KeptExcept [.host] s (s.request requests)

/-- TICK (R163): both timers down by one, floored at 0; the result is whether `ST` was not 0 before; FAULTED, it returns false
and changes nothing. -/
def Obligations.TickCountsBothTimersDown : Prop :=
  ∀ (s : State) (es : List Event), s.pending = .tick :: es →
    ∃ t, step s = .next t ∧ t.pending = es ∧
      (s.fault = none → t.tone = decide (s.st ≠ 0) ∧
        t.dt = (if s.dt = 0 then 0 else s.dt - 1) ∧ t.st = (if s.st = 0 then 0 else s.st - 1)) ∧
      (s.fault ≠ none → t.tone = false ∧ t.dt = s.dt ∧ t.st = s.st) ∧
      t.inKeys = s.inKeys ∧ t.inRnd = s.inRnd ∧ t.inCount = s.inCount ∧
      KeptExcept [.delay, .sound, .host] s t

/-- After `ST = n` the next `n` TICKs return true and the one after returns false (R163), whatever the host does after them. -/
def Obligations.ToneLastsAsManyTicksAsTheSoundTimer : Prop :=
  ∀ (n k : Nat) (s : State) (es : List Event), s.fault = none → s.st.toNat = n → k ≤ n →
    s.pending = List.replicate (n + 1) .tick ++ es →
    ∃ t : State, Host.Core.run core (k + 1) s = .next t ∧ t.tone = decide (k < n) ∧ t.st.toNat = n - (k + 1)

/-- KEY_RELEASE (R164, decision D19): recorded in `LASTKEY` iff Waiting, the key outside `IGNORE`, none recorded, no fault
latched; it changes no other state. -/
def Obligations.KeyReleaseRecordsTheFirstQualifyingKey : Prop :=
  ∀ (s : State) (k : Key) (es : List Event), s.pending = .keyRelease k :: es →
    ∃ t, step s = .next t ∧ t.pending = es ∧
      ((s.fault = none ∧ s.waiting = true ∧ s.ignore.getLsbD k.val = false ∧ s.lastKey = none) →
        t.lastKey = some k ∧ t.waiting = true ∧ t.ignore = s.ignore ∧ KeptExcept [.keyWait, .host] s t) ∧
      (¬ (s.fault = none ∧ s.waiting = true ∧ s.ignore.getLsbD k.val = false ∧ s.lastKey = none) →
        KeptExcept [.host] s t)

/-- SET_QUIRKS (R165, decision D28): a legal bundle replaces `QUIRKS` and nothing else; the bit pattern with
`reg_save_load = 3` is refused. That a set bit 7 is refused too is the model's choice (log entry 5). -/
def Obligations.SetQuirksReplacesTheBundle : Prop :=
  (∀ (s : State) (q : Quirks) (es : List Event), s.fault = none → s.pending = .setQuirks q.toBits :: es →
    ∃ t, step s = .next t ∧ t.quirks = q ∧ t.pending = es ∧ KeptExcept [.quirks, .host] s t) ∧
  (∀ (s : State) (bits : Byte) (es : List Event), s.fault = none → s.pending = .setQuirks bits :: es →
    (bits.getLsbD 3 = true ∧ bits.getLsbD 2 = true) ∨ bits.getLsbD 7 = true →
    step s = .refused (.illegalQuirks bits))

/-- The port layout of `QUIRKS` (R34, decision D28): each field at its bits, and reading back what was written. -/
def Obligations.QuirkPortLayout : Prop :=
  ∀ q : Quirks,
    Quirks.ofBits q.toBits = some q ∧
    q.toBits.getLsbD 0 = decide (q.vfReset = .on) ∧
    q.toBits.getLsbD 1 = decide (q.shifting = .operandY) ∧
    (q.toBits.toNat / 4 % 4 = match q.regSaveLoad with
      | .unchanged => 0
      | .advanceByCount => 1
      | .advanceByCountPlusOne => 2) ∧
    q.toBits.getLsbD 4 = decide (q.jump = .offsetByX) ∧
    q.toBits.getLsbD 5 = decide (q.screenWrap = .on) ∧
    q.toBits.getLsbD 6 = decide (q.scrollStyle = .legacy) ∧
    q.toBits.getLsbD 7 = false

/-- DISPLAY (R166, R31): a grid of 64 x 32 or 128 x 64 by `HIRES`, whose entry in row `y`, column `x` is that pixel. The list
of rows is the model's form (log entry 11). -/
def Obligations.DisplayShowsTheGrid : Prop :=
  ∀ s : State,
    s.display.length = (if s.hires then 64 else 32) ∧
    (∀ row ∈ s.display, row.length = if s.hires then 128 else 64) ∧
    ∀ x y row, s.display[y]? = some row → x < row.length → row[x]? = some (s.pixel x y)

/-! ## Class 0 -/

/-- `00CN` (R90; decision D16): row `y` shows what row `y - N` showed, the top `N` rows are blank; nothing else changes. -/
def Obligations.ScrollDownMovesRows : Prop :=
  ∀ (n : Nibble) (s : State), ∃ t, exec (.scd n) s = .next t ∧
    (∀ x y, x < s.width → y < s.height → t.pixel x y = if n.toNat ≤ y then s.pixel x (y - n.toNat) else false) ∧
    KeptExcept [.pixels] s t

/-- `00FB` and `00FC` (R93, R94; decision D16): columns move by 4, the vacated ones are blank; nothing else changes. -/
def Obligations.ScrollSidewaysMovesColumns : Prop :=
  ∀ s : State,
    (∃ t, exec .scr s = .next t ∧
      (∀ x y, x < s.width → y < s.height → t.pixel x y = if 4 ≤ x then s.pixel (x - 4) y else false) ∧
      KeptExcept [.pixels] s t) ∧
    (∃ t, exec .scl s = .next t ∧
      (∀ x y, x < s.width → y < s.height → t.pixel x y = if x + 4 < s.width then s.pixel (x + 4) y else false) ∧
      KeptExcept [.pixels] s t)

/-- `00E0`, `00FE`, `00FF` (R91, R96, R97): every pixel goes off; the two resolution opcodes set `HIRES`, also when the mode
was already active; nothing else changes. The words first. -/
def Obligations.ClearAndResolutionBlankTheGrid : Prop :=
  decodeWord 0x00E0 = some .cls ∧ decodeWord 0x00FE = some .low ∧ decodeWord 0x00FF = some .high ∧
  ∀ s : State,
    (∃ t, exec .cls s = .next t ∧ (∀ x y, t.pixel x y = false) ∧ KeptExcept [.pixels] s t) ∧
    (∃ t, exec .low s = .next t ∧ t.hires = false ∧ t.width = 64 ∧ t.height = 32 ∧ (∀ x y, t.pixel x y = false) ∧
      KeptExcept [.hires, .pixels] s t) ∧
    (∃ t, exec .high s = .next t ∧ t.hires = true ∧ t.width = 128 ∧ t.height = 64 ∧ (∀ x y, t.pixel x y = false) ∧
      KeptExcept [.hires, .pixels] s t)

/-- `00EE` (R92): the top entry of `STACK` goes to `pc` as it is; with `STACK` empty, StackUnderflow, `pc` at `ia`, nothing
else changed. The word first. -/
def Obligations.ReturnPopsTheStack : Prop :=
  decodeWord 0x00EE = some .ret ∧
  ∀ s : State,
    (∀ a rest, s.stack = a :: rest →
      ∃ t, exec .ret s = .next t ∧ t.pc = a ∧ t.stack = rest ∧ KeptExcept [.pc, .stack] s t) ∧
    (s.stack = [] → ∃ t, exec .ret s = .next t ∧ Raises .stackUnderflow 0 s t)

/-- `00FD` (R95; decision D35): `pc` goes back to `ia`, nothing else changes; so a STEP in a state that meets SELF_LOOP
changes nothing of CORE and SELF_LOOP still holds. -/
def Obligations.ExitIsASelfLoop : Prop :=
  (∀ s : State, ∃ t, exec .exit s = .next t ∧ t.pc = s.pc - 2 ∧ KeptExcept [.pc] s t) ∧
  (∀ s u : State, s.fault = none → StepIsNext s u → s.selfLoop = true →
    ∃ t, step s = .next t ∧ KeptExcept [.host] s t ∧ t.selfLoop = true)

/-! ## Classes 1 to 7 and 9 -/

/-- `1NNN` (R100): `pc` is `NNN`, zero-extended; nothing else changes. The word first. -/
def Obligations.JumpSetsPc : Prop :=
  ∀ (nnn : Addr12) (s : State), decodeWord (0x1#4 ++ nnn) = some (.jp nnn) ∧
    ∃ t, exec (.jp nnn) s = .next t ∧ t.pc.toNat = nnn.toNat ∧ KeptExcept [.pc] s t

/-- `2NNN` (R29, R101; decision D3): the address of the next instruction is pushed and `pc` is `NNN`; with a finite
`STACK_DEPTH` and `STACK` full, StackOverflow. -/
def Obligations.CallPushesTheReturnAddress : Prop :=
  ∀ (nnn : Addr12) (s : State),
    ((∀ d, s.params.stackDepth = some d → s.stack.length < d) →
      ∃ t, exec (.call nnn) s = .next t ∧ t.pc.toNat = nnn.toNat ∧ t.stack = s.pc :: s.stack ∧
        KeptExcept [.pc, .stack] s t) ∧
    (∀ d, s.params.stackDepth = some d → d ≤ s.stack.length →
      ∃ t, exec (.call nnn) s = .next t ∧ Raises .stackOverflow 0 s t)

/-- A call followed at once by a return comes back to the instruction after the call with `STACK` as it was (the source's
property E5; R92, R101). -/
def Obligations.CallThenReturnComesBack : Prop :=
  ∀ (nnn : Addr12) (s : State), (∀ d, s.params.stackDepth = some d → s.stack.length < d) →
    ∃ t u, exec (.call nnn) s = .next t ∧ exec .ret (t.setPc (t.pc + 2)) = .next u ∧ KeptExcept [] s u

/-- `3XNN` and `4XNN` (R102, R103): skip 2 bytes iff `V[X]` equals, or differs from, `NN`; nothing else changes. The words
first. -/
def Obligations.SkipsOnImmediate : Prop :=
  ∀ (x : Reg) (nn : Byte) (s : State),
    decodeWord (0x3#4 ++ ofReg x ++ nn) = some (.seI x nn) ∧
    decodeWord (0x4#4 ++ ofReg x ++ nn) = some (.sneI x nn) ∧
    (∃ t, exec (.seI x nn) s = .next t ∧ t.pc = (if s.getV x = nn then s.pc + 2 else s.pc) ∧ KeptExcept [.pc] s t) ∧
    (∃ t, exec (.sneI x nn) s = .next t ∧ t.pc = (if s.getV x = nn then s.pc else s.pc + 2) ∧ KeptExcept [.pc] s t)

/-- `5XY0` and `9XY0` (R104, R105): skip 2 bytes iff `V[X]` equals, or differs from, `V[Y]`; nothing else changes. -/
def Obligations.SkipsOnRegisters : Prop :=
  ∀ (x y : Reg) (s : State),
    (∃ t, exec (.seR x y) s = .next t ∧ t.pc = (if s.getV x = s.getV y then s.pc + 2 else s.pc) ∧
      KeptExcept [.pc] s t) ∧
    (∃ t, exec (.sneR x y) s = .next t ∧ t.pc = (if s.getV x = s.getV y then s.pc else s.pc + 2) ∧
      KeptExcept [.pc] s t)

/-- `6XNN` and `7XNN` (R106, R107): `V[X]` is `NN`, or the sum modulo 256 with no flag; nothing else changes, `pc`
included. The words first. -/
def Obligations.ImmediateLoadAndAdd : Prop :=
  ∀ (x : Reg) (nn : Byte) (s : State),
    decodeWord (0x6#4 ++ ofReg x ++ nn) = some (.ldI x nn) ∧
    decodeWord (0x7#4 ++ ofReg x ++ nn) = some (.addI x nn) ∧
    (∃ t, exec (.ldI x nn) s = .next t ∧ t.getV x = nn ∧ KeptExcept [.reg x] s t) ∧
    (∃ t, exec (.addI x nn) s = .next t ∧ (t.getV x).toNat = ((s.getV x).toNat + nn.toNat) % 256 ∧
      KeptExcept [.reg x] s t)

/-! ## Class 8 -/

/-- `8XY0` to `8XY3` (R110 to R114; decision D7): the result in `V[X]`, for every X and Y; `V[15]`, unless it is X, is left as
the prologue makes it; nothing else changes. -/
def Obligations.MoveAndLogic : Prop :=
  ∀ (x y : Reg) (s : State),
    (∃ t, exec (.ldR x y) s = .next t ∧ t.getV x = s.aluOperand y ∧
      (x ≠ VF → t.getV VF = s.vfAfterPrologue) ∧ KeptExcept [.reg x, .reg VF] s t) ∧
    (∃ t, exec (.orR x y) s = .next t ∧ t.getV x = s.aluOperand x ||| s.aluOperand y ∧
      (x ≠ VF → t.getV VF = s.vfAfterPrologue) ∧ KeptExcept [.reg x, .reg VF] s t) ∧
    (∃ t, exec (.andR x y) s = .next t ∧ t.getV x = s.aluOperand x &&& s.aluOperand y ∧
      (x ≠ VF → t.getV VF = s.vfAfterPrologue) ∧ KeptExcept [.reg x, .reg VF] s t) ∧
    (∃ t, exec (.xorR x y) s = .next t ∧ t.getV x = s.aluOperand x ^^^ s.aluOperand y ∧
      (x ≠ VF → t.getV VF = s.vfAfterPrologue) ∧ KeptExcept [.reg x, .reg VF] s t)

/-- `8XY4` (R115; decisions D7, D13): the sum modulo 256 in `V[X]`, the carry in `V[15]`, which overwrites the sum when X is
15; nothing else changes. -/
def Obligations.AddSetsTheCarry : Prop :=
  ∀ (x y : Reg) (s : State), ∃ t, exec (.addR x y) s = .next t ∧
    (x ≠ VF → (t.getV x).toNat = ((s.aluOperand x).toNat + (s.aluOperand y).toNat) % 256) ∧
    t.getV VF = (if 256 ≤ (s.aluOperand x).toNat + (s.aluOperand y).toNat then 1 else 0) ∧
    KeptExcept [.reg x, .reg VF] s t

/-- `8XY5` and `8XY7` (R116, R118; decisions D7, D13): the difference modulo 256 in `V[X]`, in `V[15]` whether there was no
borrow, inclusive; nothing else changes. -/
def Obligations.SubtractSetsNoBorrow : Prop :=
  ∀ (x y : Reg) (s : State),
    (∃ t, exec (.sub x y) s = .next t ∧
      (x ≠ VF → (t.getV x).toNat = (256 + (s.aluOperand x).toNat - (s.aluOperand y).toNat) % 256) ∧
      t.getV VF = (if (s.aluOperand y).toNat ≤ (s.aluOperand x).toNat then 1 else 0) ∧
      KeptExcept [.reg x, .reg VF] s t) ∧
    (∃ t, exec (.subn x y) s = .next t ∧
      (x ≠ VF → (t.getV x).toNat = (256 + (s.aluOperand y).toNat - (s.aluOperand x).toNat) % 256) ∧
      t.getV VF = (if (s.aluOperand x).toNat ≤ (s.aluOperand y).toNat then 1 else 0) ∧
      KeptExcept [.reg x, .reg VF] s t)

/-- `8XY6` and `8XYE` (R117, R119; decisions D7, D13): the operand the `shifting` quirk selects, shifted by 1 into `V[X]`, the
bit pushed out in `V[15]`; nothing else changes, `V[Y]` included. -/
def Obligations.ShiftsByOne : Prop :=
  ∀ (x y : Reg) (s : State) (src : Byte),
    src = (if s.quirks.shifting = .operandX then s.aluOperand x else s.aluOperand y) →
    (∃ t, exec (.shr x y) s = .next t ∧
      (x ≠ VF → (t.getV x).toNat = src.toNat / 2) ∧ (t.getV VF).toNat = src.toNat % 2 ∧
      KeptExcept [.reg x, .reg VF] s t) ∧
    (∃ t, exec (.shl x y) s = .next t ∧
      (x ≠ VF → (t.getV x).toNat = src.toNat * 2 % 256) ∧ (t.getV VF).toNat = src.toNat / 128 ∧
      KeptExcept [.reg x, .reg VF] s t)

/-! ## Classes A, B, C -/

/-- `ANNN` (R120): `I` is `NNN`, zero-extended; nothing else changes. The word first. -/
def Obligations.LoadIndexImmediate : Prop :=
  ∀ (nnn : Addr12) (s : State), decodeWord (0xA#4 ++ nnn) = some (.ldIdx nnn) ∧
    ∃ t, exec (.ldIdx nnn) s = .next t ∧ t.i.toNat = nnn.toNat ∧ KeptExcept [.index] s t

/-- `BNNN` (R121; decision D9): `V[0] + NNN`, or, under `offset_by_X`, `V[X] + NN` with `X` and `NN` the high nibble and the low
byte of `NNN`; not reduced to 12 bits; nothing else changes. -/
def Obligations.JumpWithOffset : Prop :=
  ∀ (nnn : Addr12) (s : State), ∃ t, exec (.jpOff nnn) s = .next t ∧
    (s.quirks.jump = .classic → t.pc.toNat = (s.getV 0).toNat + nnn.toNat) ∧
    (s.quirks.jump = .offsetByX →
      ∀ x : Reg, x.val = nnn.toNat / 256 → t.pc.toNat = (s.getV x).toNat + nnn.toNat % 256) ∧
    KeptExcept [.pc] s t

/-- `CXNN` (R122; decision D20): `V[X]` is `rnd & NN` for the byte given with the STEP, whatever it is; nothing else
changes. -/
def Obligations.RandomByteIsMasked : Prop :=
  ∀ (x : Reg) (nn : Byte) (s : State), ∃ t, exec (.rnd x nn) s = .next t ∧ t.getV x = s.inRnd &&& nn ∧
    (nn = 0 → t.getV x = 0) ∧ KeptExcept [.reg x] s t

/-! ## Class D -/

/-- `DXYN` and `DXY0` (R125 to R129; decisions D14, D15, D26, D31): every pixel the sprite covers toggles, by the wrap or clip
policy; `V[15]` is 1 iff one of them was on, else 0; nothing else changes. A sprite that does not lie wholly in memory raises
OutOfBoundsAccess and changes nothing. -/
def Obligations.SpritesToggleThePixelsTheyCover : Prop :=
  (∀ (x y : Reg) (n : Nibble) (s : State),
    (s.i.toNat + n.toNat ≤ 4096 → ∃ t, exec (.drw x y n) s = .next t ∧ Draws x y n.toNat 1 s t) ∧
    (4096 < s.i.toNat + n.toNat → ∃ t, exec (.drw x y n) s = .next t ∧
      Raises .outOfBoundsAccess (BitVec.ofNat 16 (max s.i.toNat 4096)) s t)) ∧
  (∀ (x y : Reg) (s : State),
    (s.i.toNat + 32 ≤ 4096 → ∃ t, exec (.drw16 x y) s = .next t ∧ Draws x y 16 2 s t) ∧
    (4096 < s.i.toNat + 32 → ∃ t, exec (.drw16 x y) s = .next t ∧
      Raises .outOfBoundsAccess (BitVec.ofNat 16 (max s.i.toNat 4096)) s t))

/-- Drawing the identical sprite twice (R128 b, the source's property E6): every pixel is as before, and `V[15]` is 1 after the
second draw iff a pixel the sprite covers was on before the second draw. -/
def Obligations.DrawingTwiceRestoresTheDisplay : Prop :=
  (∀ (x y : Reg) (n : Nibble) (s : State), x ≠ VF → y ≠ VF → s.i.toNat + n.toNat ≤ 4096 →
    ∃ t u, exec (.drw x y n) s = .next t ∧ exec (.drw x y n) t = .next u ∧
      (∀ px py, u.pixel px py = s.pixel px py) ∧
      (u.getV VF = 1 ↔ ∃ px py, s.SpriteCovers x y n.toNat 1 px py ∧ t.pixel px py = true)) ∧
  (∀ (x y : Reg) (s : State), x ≠ VF → y ≠ VF → s.i.toNat + 32 ≤ 4096 →
    ∃ t u, exec (.drw16 x y) s = .next t ∧ exec (.drw16 x y) t = .next u ∧
      (∀ px py, u.pixel px py = s.pixel px py) ∧
      (u.getV VF = 1 ↔ ∃ px py, s.SpriteCovers x y 16 2 px py ∧ t.pixel px py = true))

/-! ## Class E -/

/-- `EX9E` and `EXA1` (R130, R131; decision D22): skip iff the key numbered `V[X]` is, or is not, held; a number above 15 is
held by none; nothing else changes. -/
def Obligations.KeySkipsFollowTheHeldKeys : Prop :=
  ∀ (x : Reg) (s : State),
    (∃ t, exec (.skp x) s = .next t ∧
      t.pc = (if (s.getV x).toNat ≤ 15 ∧ s.inKeys.getLsbD (s.getV x).toNat = true then s.pc + 2 else s.pc) ∧
      KeptExcept [.pc] s t) ∧
    (∃ t, exec (.sknp x) s = .next t ∧
      t.pc = (if (s.getV x).toNat ≤ 15 ∧ s.inKeys.getLsbD (s.getV x).toNat = true then s.pc else s.pc + 2) ∧
      KeptExcept [.pc] s t)

/-! ## Class F -/

/-- `FX07`, `FX15`, `FX18` (R135, R138, R139): `V[X]` is `DT`; `DT` is `V[X]`; `ST` is `V[X]`; nothing else changes. The words
first. -/
def Obligations.TimersAreReadAndSet : Prop :=
  ∀ (x : Reg) (s : State),
    decodeWord (0xF#4 ++ ofReg x ++ 0x07#8) = some (.ldVxDt x) ∧
    decodeWord (0xF#4 ++ ofReg x ++ 0x15#8) = some (.ldDtVx x) ∧
    decodeWord (0xF#4 ++ ofReg x ++ 0x18#8) = some (.ldStVx x) ∧
    (∃ t, exec (.ldVxDt x) s = .next t ∧ t.getV x = s.dt ∧ KeptExcept [.reg x] s t) ∧
    (∃ t, exec (.ldDtVx x) s = .next t ∧ t.dt = s.getV x ∧ KeptExcept [.delay] s t) ∧
    (∃ t, exec (.ldStVx x) s = .next t ∧ t.st = s.getV x ∧ KeptExcept [.sound] s t)

/-- `FX0A` (R136, R137; decision D19): Idle, it begins the wait with the held keys as ignore-set; Waiting with a release
recorded outside `IGNORE`, it resolves; Waiting otherwise, it goes on waiting. -/
def Obligations.KeyWaitBeginsResolvesOrWaits : Prop :=
  ∀ (x : Reg) (s : State),
    (s.waiting = false →
      ∃ t, exec (.ldVxK x) s = .next t ∧ t.waiting = true ∧ t.ignore = s.inKeys ∧ t.lastKey = none ∧
        t.pc = s.pc - 2 ∧ KeptExcept [.pc, .keyWait] s t) ∧
    (∀ k : Key, s.waiting = true → s.lastKey = some k → s.ignore.getLsbD k.val = false →
      ∃ t, exec (.ldVxK x) s = .next t ∧ (t.getV x).toNat = k.val ∧ t.waiting = false ∧ t.ignore = 0 ∧
        t.lastKey = none ∧ KeptExcept [.reg x, .keyWait] s t) ∧
    (s.waiting = true → (∀ k : Key, s.lastKey = some k → s.ignore.getLsbD k.val = true) →
      ∃ t, exec (.ldVxK x) s = .next t ∧ t.pc = s.pc - 2 ∧ KeptExcept [.pc] s t)

/-- `FX1E`, `FX29`, `FX30` (R140 to R142; decisions D10, D23): `I` plus `V[X]` modulo 65536; the address of a glyph of either
font by its formula, `V[X]` used whole; no flag, nothing else changes. -/
def Obligations.IndexArithmetic : Prop :=
  ∀ (x : Reg) (s : State),
    (∃ t, exec (.addIdx x) s = .next t ∧ t.i.toNat = (s.i.toNat + (s.getV x).toNat) % 65536 ∧
      KeptExcept [.index] s t) ∧
    (∃ t, exec (.ldF x) s = .next t ∧ t.i.toNat = 0x050 + 5 * (s.getV x).toNat ∧ KeptExcept [.index] s t) ∧
    (∃ t, exec (.ldHf x) s = .next t ∧ t.i.toNat = 0x0A0 + 10 * (s.getV x).toNat ∧ KeptExcept [.index] s t)

/-- `FX33` (R143): the three decimal digits of `V[X]` at `I`, `I + 1`, `I + 2`; nothing else changes, every other byte of
memory included. If `I + 3 > 4096`, OutOfBoundsAccess and none is written. The word first. -/
def Obligations.BcdStoresTheDigits : Prop :=
  ∀ (x : Reg) (s : State),
    decodeWord (0xF#4 ++ ofReg x ++ 0x33#8) = some (.ldB x) ∧
    (s.i.toNat + 3 ≤ 4096 →
      ∃ t, exec (.ldB x) s = .next t ∧
        (t.readByte s.i.toNat).toNat = (s.getV x).toNat / 100 ∧
        (t.readByte (s.i.toNat + 1)).toNat = (s.getV x).toNat / 10 % 10 ∧
        (t.readByte (s.i.toNat + 2)).toNat = (s.getV x).toNat % 10 ∧
        KeptExcept [.bytes s.i.toNat 3] s t) ∧
    (4096 < s.i.toNat + 3 → ∃ t, exec (.ldB x) s = .next t ∧
      Raises .outOfBoundsAccess (BitVec.ofNat 16 (max s.i.toNat 4096)) s t)

/-- `FX55` (R144, R145; decision D8): `V[0]` to `V[X]` at `I` to `I + X`, then `I` moves by the quirk; nothing else changes,
every other byte of memory included. If `I + X + 1 > 4096`, OutOfBoundsAccess and nothing is written. -/
def Obligations.RegisterDumpStores : Prop :=
  ∀ (x : Reg) (s : State),
    (s.i.toNat + (x.val + 1) ≤ 4096 →
      ∃ t, exec (.ldMemVx x) s = .next t ∧
        (∀ k : Reg, k ≤ x → t.readByte (s.i.toNat + k.val) = s.getV k) ∧
        t.i.toNat = (s.i.toNat + s.advanceCount x) % 65536 ∧
        KeptExcept [.bytes s.i.toNat (x.val + 1), .index] s t) ∧
    (4096 < s.i.toNat + (x.val + 1) → ∃ t, exec (.ldMemVx x) s = .next t ∧
      Raises .outOfBoundsAccess (BitVec.ofNat 16 (max s.i.toNat 4096)) s t)

/-- `FX65` (R145, R146; decision D8): `V[0]` to `V[X]` are the bytes at `I` to `I + X`, registers above X unchanged, then `I`
moves by the quirk; nothing else changes. If `I + X + 1 > 4096`, OutOfBoundsAccess and no register is written. -/
def Obligations.RegisterLoadReads : Prop :=
  ∀ (x : Reg) (s : State),
    (s.i.toNat + (x.val + 1) ≤ 4096 →
      ∃ t, exec (.ldVxMem x) s = .next t ∧
        (∀ k : Reg, k ≤ x → t.getV k = s.readByte (s.i.toNat + k.val)) ∧
        (∀ k : Reg, x < k → t.getV k = s.getV k) ∧
        t.i.toNat = (s.i.toNat + s.advanceCount x) % 65536 ∧
        KeptExcept (.index :: (List.finRange 16).map .reg) s t) ∧
    (4096 < s.i.toNat + (x.val + 1) → ∃ t, exec (.ldVxMem x) s = .next t ∧
      Raises .outOfBoundsAccess (BitVec.ofNat 16 (max s.i.toNat 4096)) s t)

/-- The dump and load round trip in its corrected reading (C9, E9): with `unchanged`, after `FF55` and then any change that
leaves `I` and the 16 bytes alone, `FF65` restores all sixteen registers. -/
def Obligations.DumpThenLoadRestoresTheRegisters : Prop :=
  ∀ (s t u : State), s.quirks.regSaveLoad = .unchanged → s.i.toNat + 16 ≤ 4096 → exec (.ldMemVx 15) s = .next t →
    u.i = t.i → (∀ a, t.i.toNat ≤ a → a < t.i.toNat + 16 → u.readByte a = t.readByte a) →
    ∃ v, exec (.ldVxMem 15) u = .next v ∧ ∀ x, v.getV x = s.getV x

/-- A store is seen by the very next fetch (R64, R185): after any `FX33` or `FX55` that stores, the word at the next instruction
is made of the bytes stored where the run covers it, both bytes, one or none, and of the bytes before elsewhere. -/
def Obligations.StoresAreSeenByTheNextFetch : Prop :=
  ∀ (x : Reg) (s : State),
    (s.i.toNat + 3 ≤ 4096 → ∃ t, exec (.ldB x) s = .next t ∧ t.pc = s.pc ∧
      ∀ stored : List Byte, stored.map BitVec.toNat =
          [(s.getV x).toNat / 100, (s.getV x).toNat / 10 % 10, (s.getV x).toNat % 10] →
        t.fetchWord = wordOfBytes (s.overlaid stored s.pc.toNat) (s.overlaid stored (s.pc.toNat + 1))) ∧
    (s.i.toNat + (x.val + 1) ≤ 4096 → ∃ t, exec (.ldMemVx x) s = .next t ∧ t.pc = s.pc ∧
      ∀ stored : List Byte, stored = ((List.finRange 16).take (x.val + 1)).map s.getV →
        t.fetchWord = wordOfBytes (s.overlaid stored s.pc.toNat) (s.overlaid stored (s.pc.toNat + 1)))

/-! ## The key wait as a whole -/

/-- What ends a wait (R136, R173): a release of a key outside `IGNORE`, then a STEP, whatever its inputs. -/
def Obligations.QualifyingReleaseEndsTheWait : Prop :=
  ∀ (s : State) (x : Reg) (k : Key) (keys : BitVec 16) (rnd : Byte) (es : List Event),
    s.fault = none → s.waiting = true → inMemory s.pc.toNat 2 → decodeWord s.fetchWord = some (.ldVxK x) →
    s.lastKey = none → s.ignore.getLsbD k.val = false → s.pending = .keyRelease k :: .step keys rnd :: es →
    ∃ t u, step s = .next t ∧ step t = .next u ∧ (u.getV x).toNat = k.val ∧ u.waiting = false ∧ u.ignore = 0 ∧
      u.lastKey = none ∧ u.pc = s.pc + 2 ∧ u.pending = es ∧ KeptExcept [.reg x, .pc, .keyWait, .host] s u

/-- What cannot end a wait (R136, E7, decision D19): through any sequence of TICKs, STEPs with any inputs, and releases of
keys of the ignore-set, the machine goes on waiting at the same `FX0A`; only the timers move. -/
def Obligations.IgnoredKeysNeverEndTheWait : Prop :=
  ∀ (es rest : List Event) (s : State) (x : Reg),
    s.fault = none → s.waiting = true → inMemory s.pc.toNat 2 → decodeWord s.fetchWord = some (.ldVxK x) →
    s.lastKey = none → s.pending = es ++ rest →
    (∀ e ∈ es, e = .tick ∨ (∃ keys rnd, e = .step keys rnd) ∨ (∃ k : Key, e = .keyRelease k ∧ s.ignore.getLsbD k.val = true)) →
    ∃ t : State, Host.Core.run core es.length s = .next t ∧ t.pending = rest ∧ KeptExcept [.delay, .sound, .host] s t
end

