-- ==== Sys2Proof/Laws/Decode.lean ====
section
/-! SUPPORT. The fields of a word and the words the encoder packs, as numbers: each field of a packed word is the nibble
packed there, and every word is the packing of its fields. -/

namespace Sys2Proof

theorem toNat_append_nibble {k : Nat} (a : BitVec k) (b : Nibble) : (a ++ b).toNat = a.toNat * 16 + b.toNat := by
  rw [BitVec.toNat_append, Nat.shiftLeft_eq, Nat.mul_comm, ← Nat.two_pow_add_eq_or_of_lt b.isLt]

theorem toNat_packWord (c x y n : Nibble) :
    (packWord c x y n).toNat = c.toNat * 4096 + x.toNat * 256 + y.toNat * 16 + n.toNat := by
  unfold packWord; rw [toNat_append_nibble, toNat_append_nibble, toNat_append_nibble]; omega

theorem toNat_joinNN (y n : Nibble) : (joinNN y n).toNat = y.toNat * 16 + n.toNat := toNat_append_nibble y n

theorem toNat_joinNNN (x y n : Nibble) : (joinNNN x y n).toNat = x.toNat * 256 + y.toNat * 16 + n.toNat := by
  unfold joinNNN; rw [toNat_append_nibble, toNat_append_nibble]; omega

theorem toNat_fieldClass (w : Word) : (fieldClass w).toNat = w.toNat / 4096 := by
  have := w.isLt
  simp [fieldClass, BitVec.extractLsb'_toNat, Nat.shiftRight_eq_div_pow]; omega
theorem toNat_fieldX (w : Word) : (fieldX w).toNat = w.toNat / 256 % 16 := by
  simp [fieldX, BitVec.extractLsb'_toNat, Nat.shiftRight_eq_div_pow]
theorem toNat_fieldY (w : Word) : (fieldY w).toNat = w.toNat / 16 % 16 := by
  simp [fieldY, BitVec.extractLsb'_toNat, Nat.shiftRight_eq_div_pow]
theorem toNat_fieldN (w : Word) : (fieldN w).toNat = w.toNat % 16 := by
  simp [fieldN, BitVec.extractLsb'_toNat]

theorem toNat_hiNN (b : Byte) : (hiNN b).toNat = b.toNat / 16 := by
  have := b.isLt
  simp [hiNN, BitVec.extractLsb'_toNat, Nat.shiftRight_eq_div_pow]; omega
theorem toNat_loNN (b : Byte) : (loNN b).toNat = b.toNat % 16 := by
  simp [loNN, BitVec.extractLsb'_toNat]
theorem toNat_hiNNN (a : Addr12) : (hiNNN a).toNat = a.toNat / 256 := by
  have := a.isLt
  simp [hiNNN, BitVec.extractLsb'_toNat, Nat.shiftRight_eq_div_pow]; omega
theorem toNat_midNNN (a : Addr12) : (midNNN a).toNat = a.toNat / 16 % 16 := by
  simp [midNNN, BitVec.extractLsb'_toNat, Nat.shiftRight_eq_div_pow]
theorem toNat_loNNN (a : Addr12) : (loNNN a).toNat = a.toNat % 16 := by
  simp [loNNN, BitVec.extractLsb'_toNat]

section
variable (c x y n : Nibble)

@[simp] theorem fieldClass_packWord : fieldClass (packWord c x y n) = c := by
  apply BitVec.eq_of_toNat_eq; rw [toNat_fieldClass, toNat_packWord]; omega
@[simp] theorem fieldX_packWord : fieldX (packWord c x y n) = x := by
  apply BitVec.eq_of_toNat_eq; rw [toNat_fieldX, toNat_packWord]; omega
@[simp] theorem fieldY_packWord : fieldY (packWord c x y n) = y := by
  apply BitVec.eq_of_toNat_eq; rw [toNat_fieldY, toNat_packWord]; omega
@[simp] theorem fieldN_packWord : fieldN (packWord c x y n) = n := by
  apply BitVec.eq_of_toNat_eq; rw [toNat_fieldN, toNat_packWord]; omega
@[simp] theorem hiNN_joinNN : hiNN (joinNN y n) = y := by
  apply BitVec.eq_of_toNat_eq; rw [toNat_hiNN, toNat_joinNN]; omega
@[simp] theorem loNN_joinNN : loNN (joinNN y n) = n := by
  apply BitVec.eq_of_toNat_eq; rw [toNat_loNN, toNat_joinNN]; omega
@[simp] theorem hiNNN_joinNNN : hiNNN (joinNNN x y n) = x := by
  apply BitVec.eq_of_toNat_eq; rw [toNat_hiNNN, toNat_joinNNN]; omega
@[simp] theorem midNNN_joinNNN : midNNN (joinNNN x y n) = y := by
  apply BitVec.eq_of_toNat_eq; rw [toNat_midNNN, toNat_joinNNN]; omega
@[simp] theorem loNNN_joinNNN : loNNN (joinNNN x y n) = n := by
  apply BitVec.eq_of_toNat_eq; rw [toNat_loNNN, toNat_joinNNN]; omega
end

/-- Every word is the packing of its four nibbles (R82: no bit is dropped). -/
theorem packWord_fields (w : Word) : packWord (fieldClass w) (fieldX w) (fieldY w) (fieldN w) = w := by
  apply BitVec.eq_of_toNat_eq
  rw [toNat_packWord, toNat_fieldClass, toNat_fieldX, toNat_fieldY, toNat_fieldN]; omega

@[simp] theorem joinNN_split (b : Byte) : joinNN (hiNN b) (loNN b) = b := by
  apply BitVec.eq_of_toNat_eq; rw [toNat_joinNN, toNat_hiNN, toNat_loNN]; omega

@[simp] theorem joinNNN_split (a : Addr12) : joinNNN (hiNNN a) (midNNN a) (loNNN a) = a := by
  apply BitVec.eq_of_toNat_eq; rw [toNat_joinNNN, toNat_hiNNN, toNat_midNNN, toNat_loNNN]; omega

@[simp] theorem toReg_ofReg (r : Reg) : toReg (ofReg r) = r := rfl

@[simp] theorem ofReg_toReg (b : Nibble) : ofReg (toReg b) = b := rfl

/-- A packed word decodes by the nibbles packed into it. -/
theorem decodeWord_packWord (c x y n : Nibble) : decodeWord (packWord c x y n) = decodeNibbles c x y n := by
  simp [decodeWord]

/-- A word written field by field, as the rules print an encoding (R90 to R146), is the packed word. -/
theorem append_NNN (c : Nibble) (nnn : Addr12) : (c ++ nnn : Word) = packNNN c nnn := by
  apply BitVec.eq_of_toNat_eq
  unfold packNNN
  rw [toNat_packWord, toNat_hiNNN, toNat_midNNN, toNat_loNNN, BitVec.toNat_append, Nat.shiftLeft_eq, Nat.mul_comm,
    ← Nat.two_pow_add_eq_or_of_lt nnn.isLt]
  omega

theorem append_XNN (c x : Nibble) (nn : Byte) : (c ++ x ++ nn : Word) = packWord c x (hiNN nn) (loNN nn) := by
  apply BitVec.eq_of_toNat_eq
  rw [toNat_packWord, toNat_hiNN, toNat_loNN, BitVec.toNat_append, Nat.shiftLeft_eq, Nat.mul_comm,
    ← Nat.two_pow_add_eq_or_of_lt nn.isLt, toNat_append_nibble]
  omega

/-- The two bytes of a word in memory make the word again (R57). -/
@[simp] theorem wordOfBytes_split (w : Word) : wordOfBytes (firstByte w) (secondByte w) = w := by
  apply BitVec.eq_of_toNat_eq
  have h1 : (firstByte w).toNat = w.toNat / 256 := by
    have := w.isLt
    simp [firstByte, BitVec.extractLsb'_toNat, Nat.shiftRight_eq_div_pow]; omega
  have h2 : (secondByte w).toNat = w.toNat % 256 := by
    simp [secondByte, BitVec.extractLsb'_toNat]
  unfold wordOfBytes
  rw [BitVec.toNat_append, Nat.shiftLeft_eq, Nat.mul_comm, ← Nat.two_pow_add_eq_or_of_lt (secondByte w).isLt, h1, h2]
  omega

/-- A mask of whole nibbles masks each nibble. -/
theorem packWord_and (c x y n c' x' y' n' : Nibble) :
    packWord c x y n &&& packWord c' x' y' n' = packWord (c &&& c') (x &&& x') (y &&& y') (n &&& n') := by
  have app : ∀ (k : Nat) (a a' : BitVec k) (b b' : Nibble), (a ++ b) &&& (a' ++ b') = (a &&& a') ++ (b &&& b') := by
    intro k a a' b b'
    ext i hi
    simp only [BitVec.getElem_and, BitVec.getElem_append]
    split <;> simp
  unfold packWord
  rw [app, app, app]

/-- Packed words are equal iff their nibbles are. -/
theorem packWord_inj (c x y n c' x' y' n' : Nibble) :
    packWord c x y n = packWord c' x' y' n' ↔ c = c' ∧ x = x' ∧ y = y' ∧ n = n' := by
  constructor
  · intro h
    refine ⟨?_, ?_, ?_, ?_⟩
    · simpa using congrArg fieldClass h
    · simpa using congrArg fieldX h
    · simpa using congrArg fieldY h
    · simpa using congrArg fieldN h
  · rintro ⟨rfl, rfl, rfl, rfl⟩; rfl

end Sys2Proof
end

