-- ==== Sys2Proof/Laws/State.lean ====
section
/-! SUPPORT. One lemma per field per update of the state, all true by rfl; an operation made of another is rewritten to
it, so that every update is in the end one of these. -/

namespace Sys2Proof.Machine

variable (s : State)

@[simp] theorem State.skipIf_eq (c : Bool) : s.skipIf c = s.setPc (if c then s.pc + 2 else s.pc) := rfl
@[simp] theorem State.rewind_eq : s.rewind = s.setPc (s.pc - 2) := rfl
@[simp] theorem State.push_eq (a : Word) : s.push a = s.setStack (a :: s.stack) := rfl
@[simp] theorem State.writeBytes_eq (a : Nat) (bs : List Byte) : s.writeBytes a bs = s.setMem (s.mem.writeList s.params.fontLo a bs) := rfl
@[simp] theorem State.raise_eq (c : Cause) (n : Word) : s.raise c n = s.latch (s.pc - 2) c n := rfl
@[simp] theorem State.raiseOutOfBounds_eq (a : Word) :
    s.raiseOutOfBounds a = s.latch (s.pc - 2) .outOfBoundsAccess (outOfBoundsInfo a) := rfl
@[simp] theorem State.advance_eq : s.advance = s.setPc (s.pc + 2) := rfl
@[simp] theorem State.setResultAndFlag_eq (x : Reg) (r f : Byte) : s.setResultAndFlag x r f = (s.setV x r).setV VF f := rfl

section
variable (x : Reg) (b : Byte)
@[simp] theorem State.setV_v : (s.setV x b).v = s.v.set x.val b := rfl
@[simp] theorem State.setV_i : (s.setV x b).i = s.i := rfl
@[simp] theorem State.setV_pc : (s.setV x b).pc = s.pc := rfl
@[simp] theorem State.setV_stack : (s.setV x b).stack = s.stack := rfl
@[simp] theorem State.setV_mem : (s.setV x b).mem = s.mem := rfl
@[simp] theorem State.setV_hires : (s.setV x b).hires = s.hires := rfl
@[simp] theorem State.setV_fb : (s.setV x b).fb = s.fb := rfl
@[simp] theorem State.setV_dt : (s.setV x b).dt = s.dt := rfl
@[simp] theorem State.setV_st : (s.setV x b).st = s.st := rfl
@[simp] theorem State.setV_quirks : (s.setV x b).quirks = s.quirks := rfl
@[simp] theorem State.setV_waiting : (s.setV x b).waiting = s.waiting := rfl
@[simp] theorem State.setV_ignore : (s.setV x b).ignore = s.ignore := rfl
@[simp] theorem State.setV_lastKey : (s.setV x b).lastKey = s.lastKey := rfl
@[simp] theorem State.setV_fault : (s.setV x b).fault = s.fault := rfl
@[simp] theorem State.setV_params : (s.setV x b).params = s.params := rfl
@[simp] theorem State.setV_pending : (s.setV x b).pending = s.pending := rfl
@[simp] theorem State.setV_inKeys : (s.setV x b).inKeys = s.inKeys := rfl
@[simp] theorem State.setV_inRnd : (s.setV x b).inRnd = s.inRnd := rfl
@[simp] theorem State.setV_inCount : (s.setV x b).inCount = s.inCount := rfl
@[simp] theorem State.setV_tone : (s.setV x b).tone = s.tone := rfl
end

section
variable (a : Word)
@[simp] theorem State.setI_v : (s.setI a).v = s.v := rfl
@[simp] theorem State.setI_i : (s.setI a).i = a := rfl
@[simp] theorem State.setI_pc : (s.setI a).pc = s.pc := rfl
@[simp] theorem State.setI_stack : (s.setI a).stack = s.stack := rfl
@[simp] theorem State.setI_mem : (s.setI a).mem = s.mem := rfl
@[simp] theorem State.setI_hires : (s.setI a).hires = s.hires := rfl
@[simp] theorem State.setI_fb : (s.setI a).fb = s.fb := rfl
@[simp] theorem State.setI_dt : (s.setI a).dt = s.dt := rfl
@[simp] theorem State.setI_st : (s.setI a).st = s.st := rfl
@[simp] theorem State.setI_quirks : (s.setI a).quirks = s.quirks := rfl
@[simp] theorem State.setI_waiting : (s.setI a).waiting = s.waiting := rfl
@[simp] theorem State.setI_ignore : (s.setI a).ignore = s.ignore := rfl
@[simp] theorem State.setI_lastKey : (s.setI a).lastKey = s.lastKey := rfl
@[simp] theorem State.setI_fault : (s.setI a).fault = s.fault := rfl
@[simp] theorem State.setI_params : (s.setI a).params = s.params := rfl
@[simp] theorem State.setI_pending : (s.setI a).pending = s.pending := rfl
@[simp] theorem State.setI_inKeys : (s.setI a).inKeys = s.inKeys := rfl
@[simp] theorem State.setI_inRnd : (s.setI a).inRnd = s.inRnd := rfl
@[simp] theorem State.setI_inCount : (s.setI a).inCount = s.inCount := rfl
@[simp] theorem State.setI_tone : (s.setI a).tone = s.tone := rfl
end

section
variable (a : Word)
@[simp] theorem State.setPc_v : (s.setPc a).v = s.v := rfl
@[simp] theorem State.setPc_i : (s.setPc a).i = s.i := rfl
@[simp] theorem State.setPc_pc : (s.setPc a).pc = a := rfl
@[simp] theorem State.setPc_stack : (s.setPc a).stack = s.stack := rfl
@[simp] theorem State.setPc_mem : (s.setPc a).mem = s.mem := rfl
@[simp] theorem State.setPc_hires : (s.setPc a).hires = s.hires := rfl
@[simp] theorem State.setPc_fb : (s.setPc a).fb = s.fb := rfl
@[simp] theorem State.setPc_dt : (s.setPc a).dt = s.dt := rfl
@[simp] theorem State.setPc_st : (s.setPc a).st = s.st := rfl
@[simp] theorem State.setPc_quirks : (s.setPc a).quirks = s.quirks := rfl
@[simp] theorem State.setPc_waiting : (s.setPc a).waiting = s.waiting := rfl
@[simp] theorem State.setPc_ignore : (s.setPc a).ignore = s.ignore := rfl
@[simp] theorem State.setPc_lastKey : (s.setPc a).lastKey = s.lastKey := rfl
@[simp] theorem State.setPc_fault : (s.setPc a).fault = s.fault := rfl
@[simp] theorem State.setPc_params : (s.setPc a).params = s.params := rfl
@[simp] theorem State.setPc_pending : (s.setPc a).pending = s.pending := rfl
@[simp] theorem State.setPc_inKeys : (s.setPc a).inKeys = s.inKeys := rfl
@[simp] theorem State.setPc_inRnd : (s.setPc a).inRnd = s.inRnd := rfl
@[simp] theorem State.setPc_inCount : (s.setPc a).inCount = s.inCount := rfl
@[simp] theorem State.setPc_tone : (s.setPc a).tone = s.tone := rfl
end

section
variable (l : List Word)
@[simp] theorem State.setStack_v : (s.setStack l).v = s.v := rfl
@[simp] theorem State.setStack_i : (s.setStack l).i = s.i := rfl
@[simp] theorem State.setStack_pc : (s.setStack l).pc = s.pc := rfl
@[simp] theorem State.setStack_stack : (s.setStack l).stack = l := rfl
@[simp] theorem State.setStack_mem : (s.setStack l).mem = s.mem := rfl
@[simp] theorem State.setStack_hires : (s.setStack l).hires = s.hires := rfl
@[simp] theorem State.setStack_fb : (s.setStack l).fb = s.fb := rfl
@[simp] theorem State.setStack_dt : (s.setStack l).dt = s.dt := rfl
@[simp] theorem State.setStack_st : (s.setStack l).st = s.st := rfl
@[simp] theorem State.setStack_quirks : (s.setStack l).quirks = s.quirks := rfl
@[simp] theorem State.setStack_waiting : (s.setStack l).waiting = s.waiting := rfl
@[simp] theorem State.setStack_ignore : (s.setStack l).ignore = s.ignore := rfl
@[simp] theorem State.setStack_lastKey : (s.setStack l).lastKey = s.lastKey := rfl
@[simp] theorem State.setStack_fault : (s.setStack l).fault = s.fault := rfl
@[simp] theorem State.setStack_params : (s.setStack l).params = s.params := rfl
@[simp] theorem State.setStack_pending : (s.setStack l).pending = s.pending := rfl
@[simp] theorem State.setStack_inKeys : (s.setStack l).inKeys = s.inKeys := rfl
@[simp] theorem State.setStack_inRnd : (s.setStack l).inRnd = s.inRnd := rfl
@[simp] theorem State.setStack_inCount : (s.setStack l).inCount = s.inCount := rfl
@[simp] theorem State.setStack_tone : (s.setStack l).tone = s.tone := rfl
end

section
variable (m : Memory)
@[simp] theorem State.setMem_v : (s.setMem m).v = s.v := rfl
@[simp] theorem State.setMem_i : (s.setMem m).i = s.i := rfl
@[simp] theorem State.setMem_pc : (s.setMem m).pc = s.pc := rfl
@[simp] theorem State.setMem_stack : (s.setMem m).stack = s.stack := rfl
@[simp] theorem State.setMem_mem : (s.setMem m).mem = m := rfl
@[simp] theorem State.setMem_hires : (s.setMem m).hires = s.hires := rfl
@[simp] theorem State.setMem_fb : (s.setMem m).fb = s.fb := rfl
@[simp] theorem State.setMem_dt : (s.setMem m).dt = s.dt := rfl
@[simp] theorem State.setMem_st : (s.setMem m).st = s.st := rfl
@[simp] theorem State.setMem_quirks : (s.setMem m).quirks = s.quirks := rfl
@[simp] theorem State.setMem_waiting : (s.setMem m).waiting = s.waiting := rfl
@[simp] theorem State.setMem_ignore : (s.setMem m).ignore = s.ignore := rfl
@[simp] theorem State.setMem_lastKey : (s.setMem m).lastKey = s.lastKey := rfl
@[simp] theorem State.setMem_fault : (s.setMem m).fault = s.fault := rfl
@[simp] theorem State.setMem_params : (s.setMem m).params = s.params := rfl
@[simp] theorem State.setMem_pending : (s.setMem m).pending = s.pending := rfl
@[simp] theorem State.setMem_inKeys : (s.setMem m).inKeys = s.inKeys := rfl
@[simp] theorem State.setMem_inRnd : (s.setMem m).inRnd = s.inRnd := rfl
@[simp] theorem State.setMem_inCount : (s.setMem m).inCount = s.inCount := rfl
@[simp] theorem State.setMem_tone : (s.setMem m).tone = s.tone := rfl
end

section
variable (bs : List Byte)
@[simp] theorem State.loadFirstRegs_v : (s.loadFirstRegs bs).v = loadRegs s.v 0 bs := rfl
@[simp] theorem State.loadFirstRegs_i : (s.loadFirstRegs bs).i = s.i := rfl
@[simp] theorem State.loadFirstRegs_pc : (s.loadFirstRegs bs).pc = s.pc := rfl
@[simp] theorem State.loadFirstRegs_stack : (s.loadFirstRegs bs).stack = s.stack := rfl
@[simp] theorem State.loadFirstRegs_mem : (s.loadFirstRegs bs).mem = s.mem := rfl
@[simp] theorem State.loadFirstRegs_hires : (s.loadFirstRegs bs).hires = s.hires := rfl
@[simp] theorem State.loadFirstRegs_fb : (s.loadFirstRegs bs).fb = s.fb := rfl
@[simp] theorem State.loadFirstRegs_dt : (s.loadFirstRegs bs).dt = s.dt := rfl
@[simp] theorem State.loadFirstRegs_st : (s.loadFirstRegs bs).st = s.st := rfl
@[simp] theorem State.loadFirstRegs_quirks : (s.loadFirstRegs bs).quirks = s.quirks := rfl
@[simp] theorem State.loadFirstRegs_waiting : (s.loadFirstRegs bs).waiting = s.waiting := rfl
@[simp] theorem State.loadFirstRegs_ignore : (s.loadFirstRegs bs).ignore = s.ignore := rfl
@[simp] theorem State.loadFirstRegs_lastKey : (s.loadFirstRegs bs).lastKey = s.lastKey := rfl
@[simp] theorem State.loadFirstRegs_fault : (s.loadFirstRegs bs).fault = s.fault := rfl
@[simp] theorem State.loadFirstRegs_params : (s.loadFirstRegs bs).params = s.params := rfl
@[simp] theorem State.loadFirstRegs_pending : (s.loadFirstRegs bs).pending = s.pending := rfl
@[simp] theorem State.loadFirstRegs_inKeys : (s.loadFirstRegs bs).inKeys = s.inKeys := rfl
@[simp] theorem State.loadFirstRegs_inRnd : (s.loadFirstRegs bs).inRnd = s.inRnd := rfl
@[simp] theorem State.loadFirstRegs_inCount : (s.loadFirstRegs bs).inCount = s.inCount := rfl
@[simp] theorem State.loadFirstRegs_tone : (s.loadFirstRegs bs).tone = s.tone := rfl
end

section
variable (f : Frame)
@[simp] theorem State.setFb_v : (s.setFb f).v = s.v := rfl
@[simp] theorem State.setFb_i : (s.setFb f).i = s.i := rfl
@[simp] theorem State.setFb_pc : (s.setFb f).pc = s.pc := rfl
@[simp] theorem State.setFb_stack : (s.setFb f).stack = s.stack := rfl
@[simp] theorem State.setFb_mem : (s.setFb f).mem = s.mem := rfl
@[simp] theorem State.setFb_hires : (s.setFb f).hires = s.hires := rfl
@[simp] theorem State.setFb_fb : (s.setFb f).fb = f := rfl
@[simp] theorem State.setFb_dt : (s.setFb f).dt = s.dt := rfl
@[simp] theorem State.setFb_st : (s.setFb f).st = s.st := rfl
@[simp] theorem State.setFb_quirks : (s.setFb f).quirks = s.quirks := rfl
@[simp] theorem State.setFb_waiting : (s.setFb f).waiting = s.waiting := rfl
@[simp] theorem State.setFb_ignore : (s.setFb f).ignore = s.ignore := rfl
@[simp] theorem State.setFb_lastKey : (s.setFb f).lastKey = s.lastKey := rfl
@[simp] theorem State.setFb_fault : (s.setFb f).fault = s.fault := rfl
@[simp] theorem State.setFb_params : (s.setFb f).params = s.params := rfl
@[simp] theorem State.setFb_pending : (s.setFb f).pending = s.pending := rfl
@[simp] theorem State.setFb_inKeys : (s.setFb f).inKeys = s.inKeys := rfl
@[simp] theorem State.setFb_inRnd : (s.setFb f).inRnd = s.inRnd := rfl
@[simp] theorem State.setFb_inCount : (s.setFb f).inCount = s.inCount := rfl
@[simp] theorem State.setFb_tone : (s.setFb f).tone = s.tone := rfl
end

section
variable (h : Bool)
@[simp] theorem State.setMode_v : (s.setMode h).v = s.v := rfl
@[simp] theorem State.setMode_i : (s.setMode h).i = s.i := rfl
@[simp] theorem State.setMode_pc : (s.setMode h).pc = s.pc := rfl
@[simp] theorem State.setMode_stack : (s.setMode h).stack = s.stack := rfl
@[simp] theorem State.setMode_mem : (s.setMode h).mem = s.mem := rfl
@[simp] theorem State.setMode_hires : (s.setMode h).hires = h := rfl
@[simp] theorem State.setMode_fb : (s.setMode h).fb = [] := rfl
@[simp] theorem State.setMode_dt : (s.setMode h).dt = s.dt := rfl
@[simp] theorem State.setMode_st : (s.setMode h).st = s.st := rfl
@[simp] theorem State.setMode_quirks : (s.setMode h).quirks = s.quirks := rfl
@[simp] theorem State.setMode_waiting : (s.setMode h).waiting = s.waiting := rfl
@[simp] theorem State.setMode_ignore : (s.setMode h).ignore = s.ignore := rfl
@[simp] theorem State.setMode_lastKey : (s.setMode h).lastKey = s.lastKey := rfl
@[simp] theorem State.setMode_fault : (s.setMode h).fault = s.fault := rfl
@[simp] theorem State.setMode_params : (s.setMode h).params = s.params := rfl
@[simp] theorem State.setMode_pending : (s.setMode h).pending = s.pending := rfl
@[simp] theorem State.setMode_inKeys : (s.setMode h).inKeys = s.inKeys := rfl
@[simp] theorem State.setMode_inRnd : (s.setMode h).inRnd = s.inRnd := rfl
@[simp] theorem State.setMode_inCount : (s.setMode h).inCount = s.inCount := rfl
@[simp] theorem State.setMode_tone : (s.setMode h).tone = s.tone := rfl
end

section
variable (b : Byte)
@[simp] theorem State.setDt_v : (s.setDt b).v = s.v := rfl
@[simp] theorem State.setDt_i : (s.setDt b).i = s.i := rfl
@[simp] theorem State.setDt_pc : (s.setDt b).pc = s.pc := rfl
@[simp] theorem State.setDt_stack : (s.setDt b).stack = s.stack := rfl
@[simp] theorem State.setDt_mem : (s.setDt b).mem = s.mem := rfl
@[simp] theorem State.setDt_hires : (s.setDt b).hires = s.hires := rfl
@[simp] theorem State.setDt_fb : (s.setDt b).fb = s.fb := rfl
@[simp] theorem State.setDt_dt : (s.setDt b).dt = b := rfl
@[simp] theorem State.setDt_st : (s.setDt b).st = s.st := rfl
@[simp] theorem State.setDt_quirks : (s.setDt b).quirks = s.quirks := rfl
@[simp] theorem State.setDt_waiting : (s.setDt b).waiting = s.waiting := rfl
@[simp] theorem State.setDt_ignore : (s.setDt b).ignore = s.ignore := rfl
@[simp] theorem State.setDt_lastKey : (s.setDt b).lastKey = s.lastKey := rfl
@[simp] theorem State.setDt_fault : (s.setDt b).fault = s.fault := rfl
@[simp] theorem State.setDt_params : (s.setDt b).params = s.params := rfl
@[simp] theorem State.setDt_pending : (s.setDt b).pending = s.pending := rfl
@[simp] theorem State.setDt_inKeys : (s.setDt b).inKeys = s.inKeys := rfl
@[simp] theorem State.setDt_inRnd : (s.setDt b).inRnd = s.inRnd := rfl
@[simp] theorem State.setDt_inCount : (s.setDt b).inCount = s.inCount := rfl
@[simp] theorem State.setDt_tone : (s.setDt b).tone = s.tone := rfl
end

section
variable (b : Byte)
@[simp] theorem State.setSt_v : (s.setSt b).v = s.v := rfl
@[simp] theorem State.setSt_i : (s.setSt b).i = s.i := rfl
@[simp] theorem State.setSt_pc : (s.setSt b).pc = s.pc := rfl
@[simp] theorem State.setSt_stack : (s.setSt b).stack = s.stack := rfl
@[simp] theorem State.setSt_mem : (s.setSt b).mem = s.mem := rfl
@[simp] theorem State.setSt_hires : (s.setSt b).hires = s.hires := rfl
@[simp] theorem State.setSt_fb : (s.setSt b).fb = s.fb := rfl
@[simp] theorem State.setSt_dt : (s.setSt b).dt = s.dt := rfl
@[simp] theorem State.setSt_st : (s.setSt b).st = b := rfl
@[simp] theorem State.setSt_quirks : (s.setSt b).quirks = s.quirks := rfl
@[simp] theorem State.setSt_waiting : (s.setSt b).waiting = s.waiting := rfl
@[simp] theorem State.setSt_ignore : (s.setSt b).ignore = s.ignore := rfl
@[simp] theorem State.setSt_lastKey : (s.setSt b).lastKey = s.lastKey := rfl
@[simp] theorem State.setSt_fault : (s.setSt b).fault = s.fault := rfl
@[simp] theorem State.setSt_params : (s.setSt b).params = s.params := rfl
@[simp] theorem State.setSt_pending : (s.setSt b).pending = s.pending := rfl
@[simp] theorem State.setSt_inKeys : (s.setSt b).inKeys = s.inKeys := rfl
@[simp] theorem State.setSt_inRnd : (s.setSt b).inRnd = s.inRnd := rfl
@[simp] theorem State.setSt_inCount : (s.setSt b).inCount = s.inCount := rfl
@[simp] theorem State.setSt_tone : (s.setSt b).tone = s.tone := rfl
end

section
variable (w : Bool) (g : BitVec 16) (k : Option Key)
@[simp] theorem State.setKeyWait_v : (s.setKeyWait w g k).v = s.v := rfl
@[simp] theorem State.setKeyWait_i : (s.setKeyWait w g k).i = s.i := rfl
@[simp] theorem State.setKeyWait_pc : (s.setKeyWait w g k).pc = s.pc := rfl
@[simp] theorem State.setKeyWait_stack : (s.setKeyWait w g k).stack = s.stack := rfl
@[simp] theorem State.setKeyWait_mem : (s.setKeyWait w g k).mem = s.mem := rfl
@[simp] theorem State.setKeyWait_hires : (s.setKeyWait w g k).hires = s.hires := rfl
@[simp] theorem State.setKeyWait_fb : (s.setKeyWait w g k).fb = s.fb := rfl
@[simp] theorem State.setKeyWait_dt : (s.setKeyWait w g k).dt = s.dt := rfl
@[simp] theorem State.setKeyWait_st : (s.setKeyWait w g k).st = s.st := rfl
@[simp] theorem State.setKeyWait_quirks : (s.setKeyWait w g k).quirks = s.quirks := rfl
@[simp] theorem State.setKeyWait_waiting : (s.setKeyWait w g k).waiting = w := rfl
@[simp] theorem State.setKeyWait_ignore : (s.setKeyWait w g k).ignore = g := rfl
@[simp] theorem State.setKeyWait_lastKey : (s.setKeyWait w g k).lastKey = k := rfl
@[simp] theorem State.setKeyWait_fault : (s.setKeyWait w g k).fault = s.fault := rfl
@[simp] theorem State.setKeyWait_params : (s.setKeyWait w g k).params = s.params := rfl
@[simp] theorem State.setKeyWait_pending : (s.setKeyWait w g k).pending = s.pending := rfl
@[simp] theorem State.setKeyWait_inKeys : (s.setKeyWait w g k).inKeys = s.inKeys := rfl
@[simp] theorem State.setKeyWait_inRnd : (s.setKeyWait w g k).inRnd = s.inRnd := rfl
@[simp] theorem State.setKeyWait_inCount : (s.setKeyWait w g k).inCount = s.inCount := rfl
@[simp] theorem State.setKeyWait_tone : (s.setKeyWait w g k).tone = s.tone := rfl
end

section
variable (q : Quirks)
@[simp] theorem State.setQuirks_v : (s.setQuirks q).v = s.v := rfl
@[simp] theorem State.setQuirks_i : (s.setQuirks q).i = s.i := rfl
@[simp] theorem State.setQuirks_pc : (s.setQuirks q).pc = s.pc := rfl
@[simp] theorem State.setQuirks_stack : (s.setQuirks q).stack = s.stack := rfl
@[simp] theorem State.setQuirks_mem : (s.setQuirks q).mem = s.mem := rfl
@[simp] theorem State.setQuirks_hires : (s.setQuirks q).hires = s.hires := rfl
@[simp] theorem State.setQuirks_fb : (s.setQuirks q).fb = s.fb := rfl
@[simp] theorem State.setQuirks_dt : (s.setQuirks q).dt = s.dt := rfl
@[simp] theorem State.setQuirks_st : (s.setQuirks q).st = s.st := rfl
@[simp] theorem State.setQuirks_quirks : (s.setQuirks q).quirks = q := rfl
@[simp] theorem State.setQuirks_waiting : (s.setQuirks q).waiting = s.waiting := rfl
@[simp] theorem State.setQuirks_ignore : (s.setQuirks q).ignore = s.ignore := rfl
@[simp] theorem State.setQuirks_lastKey : (s.setQuirks q).lastKey = s.lastKey := rfl
@[simp] theorem State.setQuirks_fault : (s.setQuirks q).fault = s.fault := rfl
@[simp] theorem State.setQuirks_params : (s.setQuirks q).params = s.params := rfl
@[simp] theorem State.setQuirks_pending : (s.setQuirks q).pending = s.pending := rfl
@[simp] theorem State.setQuirks_inKeys : (s.setQuirks q).inKeys = s.inKeys := rfl
@[simp] theorem State.setQuirks_inRnd : (s.setQuirks q).inRnd = s.inRnd := rfl
@[simp] theorem State.setQuirks_inCount : (s.setQuirks q).inCount = s.inCount := rfl
@[simp] theorem State.setQuirks_tone : (s.setQuirks q).tone = s.tone := rfl
end

section
variable (a : Word) (c : Cause) (n : Word)
@[simp] theorem State.latch_v : (s.latch a c n).v = s.v := rfl
@[simp] theorem State.latch_i : (s.latch a c n).i = s.i := rfl
@[simp] theorem State.latch_pc : (s.latch a c n).pc = a := rfl
@[simp] theorem State.latch_stack : (s.latch a c n).stack = s.stack := rfl
@[simp] theorem State.latch_mem : (s.latch a c n).mem = s.mem := rfl
@[simp] theorem State.latch_hires : (s.latch a c n).hires = s.hires := rfl
@[simp] theorem State.latch_fb : (s.latch a c n).fb = s.fb := rfl
@[simp] theorem State.latch_dt : (s.latch a c n).dt = s.dt := rfl
@[simp] theorem State.latch_st : (s.latch a c n).st = s.st := rfl
@[simp] theorem State.latch_quirks : (s.latch a c n).quirks = s.quirks := rfl
@[simp] theorem State.latch_waiting : (s.latch a c n).waiting = s.waiting := rfl
@[simp] theorem State.latch_ignore : (s.latch a c n).ignore = s.ignore := rfl
@[simp] theorem State.latch_lastKey : (s.latch a c n).lastKey = s.lastKey := rfl
@[simp] theorem State.latch_fault : (s.latch a c n).fault = some ⟨c, a, n⟩ := rfl
@[simp] theorem State.latch_params : (s.latch a c n).params = s.params := rfl
@[simp] theorem State.latch_pending : (s.latch a c n).pending = s.pending := rfl
@[simp] theorem State.latch_inKeys : (s.latch a c n).inKeys = s.inKeys := rfl
@[simp] theorem State.latch_inRnd : (s.latch a c n).inRnd = s.inRnd := rfl
@[simp] theorem State.latch_inCount : (s.latch a c n).inCount = s.inCount := rfl
@[simp] theorem State.latch_tone : (s.latch a c n).tone = s.tone := rfl
end

section
variable (es : List Event)
@[simp] theorem State.setPending_v : (s.setPending es).v = s.v := rfl
@[simp] theorem State.setPending_i : (s.setPending es).i = s.i := rfl
@[simp] theorem State.setPending_pc : (s.setPending es).pc = s.pc := rfl
@[simp] theorem State.setPending_stack : (s.setPending es).stack = s.stack := rfl
@[simp] theorem State.setPending_mem : (s.setPending es).mem = s.mem := rfl
@[simp] theorem State.setPending_hires : (s.setPending es).hires = s.hires := rfl
@[simp] theorem State.setPending_fb : (s.setPending es).fb = s.fb := rfl
@[simp] theorem State.setPending_dt : (s.setPending es).dt = s.dt := rfl
@[simp] theorem State.setPending_st : (s.setPending es).st = s.st := rfl
@[simp] theorem State.setPending_quirks : (s.setPending es).quirks = s.quirks := rfl
@[simp] theorem State.setPending_waiting : (s.setPending es).waiting = s.waiting := rfl
@[simp] theorem State.setPending_ignore : (s.setPending es).ignore = s.ignore := rfl
@[simp] theorem State.setPending_lastKey : (s.setPending es).lastKey = s.lastKey := rfl
@[simp] theorem State.setPending_fault : (s.setPending es).fault = s.fault := rfl
@[simp] theorem State.setPending_params : (s.setPending es).params = s.params := rfl
@[simp] theorem State.setPending_pending : (s.setPending es).pending = es := rfl
@[simp] theorem State.setPending_inKeys : (s.setPending es).inKeys = s.inKeys := rfl
@[simp] theorem State.setPending_inRnd : (s.setPending es).inRnd = s.inRnd := rfl
@[simp] theorem State.setPending_inCount : (s.setPending es).inCount = s.inCount := rfl
@[simp] theorem State.setPending_tone : (s.setPending es).tone = s.tone := rfl
end

section
variable (k : BitVec 16) (r : Byte)
@[simp] theorem State.setInputs_v : (s.setInputs k r).v = s.v := rfl
@[simp] theorem State.setInputs_i : (s.setInputs k r).i = s.i := rfl
@[simp] theorem State.setInputs_pc : (s.setInputs k r).pc = s.pc := rfl
@[simp] theorem State.setInputs_stack : (s.setInputs k r).stack = s.stack := rfl
@[simp] theorem State.setInputs_mem : (s.setInputs k r).mem = s.mem := rfl
@[simp] theorem State.setInputs_hires : (s.setInputs k r).hires = s.hires := rfl
@[simp] theorem State.setInputs_fb : (s.setInputs k r).fb = s.fb := rfl
@[simp] theorem State.setInputs_dt : (s.setInputs k r).dt = s.dt := rfl
@[simp] theorem State.setInputs_st : (s.setInputs k r).st = s.st := rfl
@[simp] theorem State.setInputs_quirks : (s.setInputs k r).quirks = s.quirks := rfl
@[simp] theorem State.setInputs_waiting : (s.setInputs k r).waiting = s.waiting := rfl
@[simp] theorem State.setInputs_ignore : (s.setInputs k r).ignore = s.ignore := rfl
@[simp] theorem State.setInputs_lastKey : (s.setInputs k r).lastKey = s.lastKey := rfl
@[simp] theorem State.setInputs_fault : (s.setInputs k r).fault = s.fault := rfl
@[simp] theorem State.setInputs_params : (s.setInputs k r).params = s.params := rfl
@[simp] theorem State.setInputs_pending : (s.setInputs k r).pending = s.pending := rfl
@[simp] theorem State.setInputs_inKeys : (s.setInputs k r).inKeys = k := rfl
@[simp] theorem State.setInputs_inRnd : (s.setInputs k r).inRnd = r := rfl
@[simp] theorem State.setInputs_inCount : (s.setInputs k r).inCount = s.inCount := rfl
@[simp] theorem State.setInputs_tone : (s.setInputs k r).tone = s.tone := rfl
end

@[simp] theorem State.drawInputs_v : (s.drawInputs).v = s.v := rfl
@[simp] theorem State.drawInputs_i : (s.drawInputs).i = s.i := rfl
@[simp] theorem State.drawInputs_pc : (s.drawInputs).pc = s.pc := rfl
@[simp] theorem State.drawInputs_stack : (s.drawInputs).stack = s.stack := rfl
@[simp] theorem State.drawInputs_mem : (s.drawInputs).mem = s.mem := rfl
@[simp] theorem State.drawInputs_hires : (s.drawInputs).hires = s.hires := rfl
@[simp] theorem State.drawInputs_fb : (s.drawInputs).fb = s.fb := rfl
@[simp] theorem State.drawInputs_dt : (s.drawInputs).dt = s.dt := rfl
@[simp] theorem State.drawInputs_st : (s.drawInputs).st = s.st := rfl
@[simp] theorem State.drawInputs_quirks : (s.drawInputs).quirks = s.quirks := rfl
@[simp] theorem State.drawInputs_waiting : (s.drawInputs).waiting = s.waiting := rfl
@[simp] theorem State.drawInputs_ignore : (s.drawInputs).ignore = s.ignore := rfl
@[simp] theorem State.drawInputs_lastKey : (s.drawInputs).lastKey = s.lastKey := rfl
@[simp] theorem State.drawInputs_fault : (s.drawInputs).fault = s.fault := rfl
@[simp] theorem State.drawInputs_params : (s.drawInputs).params = s.params := rfl
@[simp] theorem State.drawInputs_pending : (s.drawInputs).pending = s.pending := rfl
@[simp] theorem State.drawInputs_inKeys : (s.drawInputs).inKeys = Config.freeKeys s.inCount := rfl
@[simp] theorem State.drawInputs_inRnd : (s.drawInputs).inRnd = Config.freeRnd s.inCount := rfl
@[simp] theorem State.drawInputs_inCount : (s.drawInputs).inCount = s.inCount + 1 := rfl
@[simp] theorem State.drawInputs_tone : (s.drawInputs).tone = s.tone := rfl

section
variable (b : Bool)
@[simp] theorem State.setTone_v : (s.setTone b).v = s.v := rfl
@[simp] theorem State.setTone_i : (s.setTone b).i = s.i := rfl
@[simp] theorem State.setTone_pc : (s.setTone b).pc = s.pc := rfl
@[simp] theorem State.setTone_stack : (s.setTone b).stack = s.stack := rfl
@[simp] theorem State.setTone_mem : (s.setTone b).mem = s.mem := rfl
@[simp] theorem State.setTone_hires : (s.setTone b).hires = s.hires := rfl
@[simp] theorem State.setTone_fb : (s.setTone b).fb = s.fb := rfl
@[simp] theorem State.setTone_dt : (s.setTone b).dt = s.dt := rfl
@[simp] theorem State.setTone_st : (s.setTone b).st = s.st := rfl
@[simp] theorem State.setTone_quirks : (s.setTone b).quirks = s.quirks := rfl
@[simp] theorem State.setTone_waiting : (s.setTone b).waiting = s.waiting := rfl
@[simp] theorem State.setTone_ignore : (s.setTone b).ignore = s.ignore := rfl
@[simp] theorem State.setTone_lastKey : (s.setTone b).lastKey = s.lastKey := rfl
@[simp] theorem State.setTone_fault : (s.setTone b).fault = s.fault := rfl
@[simp] theorem State.setTone_params : (s.setTone b).params = s.params := rfl
@[simp] theorem State.setTone_pending : (s.setTone b).pending = s.pending := rfl
@[simp] theorem State.setTone_inKeys : (s.setTone b).inKeys = s.inKeys := rfl
@[simp] theorem State.setTone_inRnd : (s.setTone b).inRnd = s.inRnd := rfl
@[simp] theorem State.setTone_inCount : (s.setTone b).inCount = s.inCount := rfl
@[simp] theorem State.setTone_tone : (s.setTone b).tone = b := rfl
end

/-! What an update leaves of the three reads (a register, a byte of memory, a pixel). -/

@[simp] theorem State.setV_readByte (x : Reg) (b : Byte) (addr : Nat) : (s.setV x b).readByte addr = s.readByte addr := rfl
@[simp] theorem State.setV_pixel (x : Reg) (b : Byte) (col row : Nat) : (s.setV x b).pixel col row = s.pixel col row := rfl
@[simp] theorem State.setI_getV (a : Word) (reg : Reg) : (s.setI a).getV reg = s.getV reg := rfl
@[simp] theorem State.setI_readByte (a : Word) (addr : Nat) : (s.setI a).readByte addr = s.readByte addr := rfl
@[simp] theorem State.setI_pixel (a : Word) (col row : Nat) : (s.setI a).pixel col row = s.pixel col row := rfl
@[simp] theorem State.setPc_getV (a : Word) (reg : Reg) : (s.setPc a).getV reg = s.getV reg := rfl
@[simp] theorem State.setPc_readByte (a : Word) (addr : Nat) : (s.setPc a).readByte addr = s.readByte addr := rfl
@[simp] theorem State.setPc_pixel (a : Word) (col row : Nat) : (s.setPc a).pixel col row = s.pixel col row := rfl
@[simp] theorem State.setStack_getV (l : List Word) (reg : Reg) : (s.setStack l).getV reg = s.getV reg := rfl
@[simp] theorem State.setStack_readByte (l : List Word) (addr : Nat) : (s.setStack l).readByte addr = s.readByte addr := rfl
@[simp] theorem State.setStack_pixel (l : List Word) (col row : Nat) : (s.setStack l).pixel col row = s.pixel col row := rfl
@[simp] theorem State.setMem_getV (m : Memory) (reg : Reg) : (s.setMem m).getV reg = s.getV reg := rfl
@[simp] theorem State.setMem_pixel (m : Memory) (col row : Nat) : (s.setMem m).pixel col row = s.pixel col row := rfl
@[simp] theorem State.loadFirstRegs_readByte (bs : List Byte) (addr : Nat) : (s.loadFirstRegs bs).readByte addr = s.readByte addr := rfl
@[simp] theorem State.loadFirstRegs_pixel (bs : List Byte) (col row : Nat) : (s.loadFirstRegs bs).pixel col row = s.pixel col row := rfl
@[simp] theorem State.setFb_getV (f : Frame) (reg : Reg) : (s.setFb f).getV reg = s.getV reg := rfl
@[simp] theorem State.setFb_readByte (f : Frame) (addr : Nat) : (s.setFb f).readByte addr = s.readByte addr := rfl
@[simp] theorem State.setMode_getV (h : Bool) (reg : Reg) : (s.setMode h).getV reg = s.getV reg := rfl
@[simp] theorem State.setMode_readByte (h : Bool) (addr : Nat) : (s.setMode h).readByte addr = s.readByte addr := rfl
@[simp] theorem State.setDt_getV (b : Byte) (reg : Reg) : (s.setDt b).getV reg = s.getV reg := rfl
@[simp] theorem State.setDt_readByte (b : Byte) (addr : Nat) : (s.setDt b).readByte addr = s.readByte addr := rfl
@[simp] theorem State.setDt_pixel (b : Byte) (col row : Nat) : (s.setDt b).pixel col row = s.pixel col row := rfl
@[simp] theorem State.setSt_getV (b : Byte) (reg : Reg) : (s.setSt b).getV reg = s.getV reg := rfl
@[simp] theorem State.setSt_readByte (b : Byte) (addr : Nat) : (s.setSt b).readByte addr = s.readByte addr := rfl
@[simp] theorem State.setSt_pixel (b : Byte) (col row : Nat) : (s.setSt b).pixel col row = s.pixel col row := rfl
@[simp] theorem State.setKeyWait_getV (w : Bool) (g : BitVec 16) (k : Option Key) (reg : Reg) : (s.setKeyWait w g k).getV reg = s.getV reg := rfl
@[simp] theorem State.setKeyWait_readByte (w : Bool) (g : BitVec 16) (k : Option Key) (addr : Nat) : (s.setKeyWait w g k).readByte addr = s.readByte addr := rfl
@[simp] theorem State.setKeyWait_pixel (w : Bool) (g : BitVec 16) (k : Option Key) (col row : Nat) : (s.setKeyWait w g k).pixel col row = s.pixel col row := rfl
@[simp] theorem State.setQuirks_getV (q : Quirks) (reg : Reg) : (s.setQuirks q).getV reg = s.getV reg := rfl
@[simp] theorem State.setQuirks_readByte (q : Quirks) (addr : Nat) : (s.setQuirks q).readByte addr = s.readByte addr := rfl
@[simp] theorem State.setQuirks_pixel (q : Quirks) (col row : Nat) : (s.setQuirks q).pixel col row = s.pixel col row := rfl
@[simp] theorem State.latch_getV (a : Word) (c : Cause) (n : Word) (reg : Reg) : (s.latch a c n).getV reg = s.getV reg := rfl
@[simp] theorem State.latch_readByte (a : Word) (c : Cause) (n : Word) (addr : Nat) : (s.latch a c n).readByte addr = s.readByte addr := rfl
@[simp] theorem State.latch_pixel (a : Word) (c : Cause) (n : Word) (col row : Nat) : (s.latch a c n).pixel col row = s.pixel col row := rfl
@[simp] theorem State.setPending_getV (es : List Event) (reg : Reg) : (s.setPending es).getV reg = s.getV reg := rfl
@[simp] theorem State.setPending_readByte (es : List Event) (addr : Nat) : (s.setPending es).readByte addr = s.readByte addr := rfl
@[simp] theorem State.setPending_pixel (es : List Event) (col row : Nat) : (s.setPending es).pixel col row = s.pixel col row := rfl
@[simp] theorem State.setInputs_getV (k : BitVec 16) (r : Byte) (reg : Reg) : (s.setInputs k r).getV reg = s.getV reg := rfl
@[simp] theorem State.setInputs_readByte (k : BitVec 16) (r : Byte) (addr : Nat) : (s.setInputs k r).readByte addr = s.readByte addr := rfl
@[simp] theorem State.setInputs_pixel (k : BitVec 16) (r : Byte) (col row : Nat) : (s.setInputs k r).pixel col row = s.pixel col row := rfl
@[simp] theorem State.drawInputs_getV (reg : Reg) : (s.drawInputs).getV reg = s.getV reg := rfl
@[simp] theorem State.drawInputs_readByte (addr : Nat) : (s.drawInputs).readByte addr = s.readByte addr := rfl
@[simp] theorem State.drawInputs_pixel (col row : Nat) : (s.drawInputs).pixel col row = s.pixel col row := rfl
@[simp] theorem State.setTone_getV (b : Bool) (reg : Reg) : (s.setTone b).getV reg = s.getV reg := rfl
@[simp] theorem State.setTone_readByte (b : Bool) (addr : Nat) : (s.setTone b).readByte addr = s.readByte addr := rfl
@[simp] theorem State.setTone_pixel (b : Bool) (col row : Nat) : (s.setTone b).pixel col row = s.pixel col row := rfl

end Sys2Proof.Machine
end

