-- ==== Sys2Proof/Laws/Display.lean ====
section
/-! SUPPORT. The framebuffer: what toggling, scrolling and drawing do to each pixel, and the canonical form. -/

namespace Sys2Proof.Machine

theorem Frame.lit_iff (fb : Frame) (x y : Nat) : fb.lit x y = true ↔ Pixel.mk x y ∈ fb := by simp [Frame.lit]

@[simp] theorem Frame.lit_nil (x y : Nat) : Frame.lit [] x y = false := by simp [Frame.lit]

@[simp] theorem State.setFb_pixel (s : State) (fb : Frame) (x y : Nat) : (s.setFb fb).pixel x y = fb.lit x y := rfl

@[simp] theorem State.setMode_pixel (s : State) (h : Bool) (x y : Nat) : (s.setMode h).pixel x y = false := by
  simp [State.setMode, State.pixel]

@[simp] theorem Frame.mem_insert (p q : Pixel) (fb : Frame) : q ∈ Frame.insert p fb ↔ q = p ∨ q ∈ fb := by
  induction fb with
  | nil => simp [Frame.insert]
  | cons r fb ih =>
    by_cases h : p.before r
    · simp [Frame.insert, h]
    · simp only [Frame.insert, h, if_false, List.mem_cons, ih]; tauto

/-- A toggle flips its pixel and no other. -/
theorem Frame.mem_toggle (p q : Pixel) (fb : Frame) :
    q ∈ Frame.toggle p fb ↔ (q = p ∧ p ∉ fb) ∨ (q ≠ p ∧ q ∈ fb) := by
  unfold Frame.toggle
  split
  · next h => by_cases e : q = p <;> simp_all
  · next h => by_cases e : q = p <;> simp_all

/-- Row `y` after a scroll down is row `y - n` before it (R90). -/
theorem Frame.lit_scrollDown (fb : Frame) (h n x y : Nat) (hy : y < h) :
    (fb.scrollDown h n).lit x y = (decide (n ≤ y) && fb.lit x (y - n)) := by
  rw [Bool.eq_iff_iff]
  simp only [Frame.lit_iff, Frame.scrollDown, List.mem_filterMap, Option.ite_none_right_eq_some, Option.some.injEq,
    Bool.and_eq_true, decide_eq_true_eq]
  constructor
  · rintro ⟨p, hp, hlt, e⟩
    cases e
    refine ⟨by omega, ?_⟩
    have : p.y + n - n = p.y := by omega
    rw [this]
    exact hp
  · rintro ⟨hn, hp⟩
    exact ⟨⟨x, y - n⟩, hp, by simp only; omega, by simp only [Pixel.mk.injEq, true_and]; omega⟩

/-- Column `x` after a scroll right is column `x - 4` before it (R93). -/
theorem Frame.lit_scrollRight (fb : Frame) (w x y : Nat) (hx : x < w) :
    (fb.scrollRight w).lit x y = (decide (4 ≤ x) && fb.lit (x - 4) y) := by
  rw [Bool.eq_iff_iff]
  simp only [Frame.lit_iff, Frame.scrollRight, List.mem_filterMap, Option.ite_none_right_eq_some, Option.some.injEq,
    Bool.and_eq_true, decide_eq_true_eq]
  constructor
  · rintro ⟨p, hp, hlt, e⟩
    cases e
    refine ⟨by omega, ?_⟩
    have : p.x + 4 - 4 = p.x := by omega
    rw [this]
    exact hp
  · rintro ⟨hn, hp⟩
    exact ⟨⟨x - 4, y⟩, hp, by simp only; omega, by simp only [Pixel.mk.injEq, and_true]; omega⟩

/-- Column `x` after a scroll left is column `x + 4` before it, off if there was none (R94). -/
theorem Frame.lit_scrollLeft (fb : Frame) (w x y : Nat) :
    (fb.scrollLeft w).lit x y = (decide (x + 4 < w) && fb.lit (x + 4) y) := by
  rw [Bool.eq_iff_iff]
  simp only [Frame.lit_iff, Frame.scrollLeft, List.mem_filterMap, Option.ite_none_right_eq_some, Option.some.injEq,
    Bool.and_eq_true, decide_eq_true_eq]
  constructor
  · rintro ⟨p, hp, ⟨h4, hlt⟩, e⟩
    cases e
    have : p.x - 4 + 4 = p.x := by omega
    rw [this]
    exact ⟨hlt, hp⟩
  · rintro ⟨hn, hp⟩
    exact ⟨⟨x + 4, y⟩, hp, ⟨by simp only; omega, hn⟩, by simp⟩

theorem Pixel.before_trans {p q r : Pixel} (h1 : p.before q) (h2 : q.before r) : p.before r := by
  unfold Pixel.before at *; omega

theorem Pixel.before_or {p q : Pixel} (h : ¬ p.before q) (hne : p ≠ q) : q.before p := by
  obtain ⟨a, b⟩ := p
  obtain ⟨c, d⟩ := q
  have : ¬ (a = c ∧ b = d) := fun e => hne (by rw [e.1, e.2])
  unfold Pixel.before at *
  simp only at *
  omega

theorem Frame.wf_nil (w h : Nat) : Frame.wf w h [] := by simp [Frame.wf]

theorem Frame.pairwise_insert {fb : Frame} (hp : fb.Pairwise Pixel.before) (p : Pixel) (hno : p ∉ fb) :
    (Frame.insert p fb).Pairwise Pixel.before := by
  induction fb with
  | nil => simp [Frame.insert]
  | cons q fb ih =>
    rw [List.pairwise_cons] at hp
    by_cases h : p.before q
    · simp only [Frame.insert, h, if_true, List.pairwise_cons]
      refine ⟨fun r hr => ?_, hp⟩
      rcases List.mem_cons.mp hr with rfl | hr
      · exact h
      · exact Pixel.before_trans h (hp.1 r hr)
    · simp only [Frame.insert, h, if_false, List.pairwise_cons]
      refine ⟨fun r hr => ?_, ih hp.2 fun h' => hno (by simp [h'])⟩
      rcases (Frame.mem_insert _ _ _).mp hr with rfl | hr
      · exact Pixel.before_or h fun e => hno (by simp [e])
      · exact hp.1 r hr

/-- A toggle of a pixel on the grid keeps the canonical form. -/
theorem Frame.wf_toggle {w h : Nat} {fb : Frame} (hw : fb.wf w h) {p : Pixel} (hp : p.x < w ∧ p.y < h) :
    (Frame.toggle p fb).wf w h := by
  unfold Frame.toggle
  split
  · exact ⟨hw.1.filter _, fun q hq => hw.2 q (List.mem_filter.mp hq).1⟩
  · next hno =>
    refine ⟨Frame.pairwise_insert hw.1 p hno, fun q hq => ?_⟩
    rcases (Frame.mem_insert _ _ _).mp hq with rfl | hq
    · exact hp
    · exact hw.2 q hq

/-- A draw of points on the grid keeps the canonical form. -/
theorem Frame.wf_draw {w h : Nat} (ps : List Pixel) {fb : Frame} (hw : fb.wf w h) (hp : ∀ p ∈ ps, p.x < w ∧ p.y < h) :
    (fb.draw ps).1.wf w h := by
  induction ps generalizing fb with
  | nil => exact hw
  | cons p ps ih => exact ih (Frame.wf_toggle hw (hp p (by simp))) fun q hq => hp q (by simp [hq])

theorem Frame.pairwise_filterMap {fb : Frame} (hp : fb.Pairwise Pixel.before) (f : Pixel → Option Pixel)
    (hf : ∀ p q p' q', p.before q → f p = some p' → f q = some q' → p'.before q') :
    (fb.filterMap f).Pairwise Pixel.before := by
  rw [List.pairwise_filterMap]
  exact hp.imp fun {p q} hpq p' h1 q' h2 => hf p q p' q' hpq h1 h2

theorem Frame.wf_scrollDown {w h : Nat} {fb : Frame} (hw : fb.wf w h) (n : Nat) : (fb.scrollDown h n).wf w h := by
  refine ⟨Frame.pairwise_filterMap hw.1 _ ?_, fun q hq => ?_⟩
  · intro p q p' q' hpq h1 h2
    simp only [Option.ite_none_right_eq_some, Option.some.injEq] at h1 h2
    obtain ⟨-, rfl⟩ := h1
    obtain ⟨-, rfl⟩ := h2
    unfold Pixel.before at *; simp only; omega
  · simp only [Frame.scrollDown, List.mem_filterMap, Option.ite_none_right_eq_some, Option.some.injEq] at hq
    obtain ⟨p, hp, hlt, rfl⟩ := hq
    exact ⟨(hw.2 p hp).1, hlt⟩

theorem Frame.wf_scrollRight {w h : Nat} {fb : Frame} (hw : fb.wf w h) : (fb.scrollRight w).wf w h := by
  refine ⟨Frame.pairwise_filterMap hw.1 _ ?_, fun q hq => ?_⟩
  · intro p q p' q' hpq h1 h2
    simp only [Option.ite_none_right_eq_some, Option.some.injEq] at h1 h2
    obtain ⟨-, rfl⟩ := h1
    obtain ⟨-, rfl⟩ := h2
    unfold Pixel.before at *; simp only; omega
  · simp only [Frame.scrollRight, List.mem_filterMap, Option.ite_none_right_eq_some, Option.some.injEq] at hq
    obtain ⟨p, hp, hlt, rfl⟩ := hq
    exact ⟨hlt, (hw.2 p hp).2⟩

theorem Frame.wf_scrollLeft {w h : Nat} {fb : Frame} (hw : fb.wf w h) : (fb.scrollLeft w).wf w h := by
  refine ⟨Frame.pairwise_filterMap hw.1 _ ?_, fun q hq => ?_⟩
  · intro p q p' q' hpq h1 h2
    simp only [Option.ite_none_right_eq_some, Option.some.injEq] at h1 h2
    obtain ⟨h1, rfl⟩ := h1
    obtain ⟨h2, rfl⟩ := h2
    unfold Pixel.before at *; simp only; omega
  · simp only [Frame.scrollLeft, List.mem_filterMap, Option.ite_none_right_eq_some, Option.some.injEq] at hq
    obtain ⟨p, hp, ⟨h4, hlt⟩, rfl⟩ := hq
    exact ⟨by simp only; omega, (hw.2 p hp).2⟩

/-- The whole of what a draw of distinct points does: exactly those pixels flip, and the flag says whether one was on. -/
theorem Frame.draw_spec (ps : List Pixel) (fb : Frame) (hnd : ps.Nodup) :
    (∀ q, q ∈ (fb.draw ps).1 ↔ (q ∈ fb ∧ q ∉ ps) ∨ (q ∉ fb ∧ q ∈ ps)) ∧
      ((fb.draw ps).2 = true ↔ ∃ q, q ∈ ps ∧ q ∈ fb) := by
  induction ps generalizing fb with
  | nil => simp [Frame.draw]
  | cons p ps ih =>
    rw [List.nodup_cons] at hnd
    obtain ⟨h1, h2⟩ := ih (Frame.toggle p fb) hnd.2
    constructor
    · intro q
      simp only [Frame.draw, h1 q, Frame.mem_toggle, List.mem_cons]
      by_cases e : q = p
      · subst e; simp [hnd.1]
      · simp [e]
    · simp only [Frame.draw, Bool.or_eq_true, decide_eq_true_eq, h2, Frame.mem_toggle, List.mem_cons]
      constructor
      · rintro (h | ⟨q, hq, hq'⟩)
        · exact ⟨p, .inl rfl, h⟩
        · rcases hq' with ⟨rfl, -⟩ | ⟨-, hq'⟩
          · exact absurd hq hnd.1
          · exact ⟨q, .inr hq, hq'⟩
      · rintro ⟨q, rfl | hq, hq'⟩
        · exact .inl hq'
        · by_cases e : q = p
          · exact .inl (e ▸ hq')
          · exact .inr ⟨q, hq, .inr ⟨e, hq'⟩⟩

/-- Drawing the same distinct points twice changes no pixel. -/
theorem Frame.draw_draw (ps : List Pixel) (fb : Frame) (hnd : ps.Nodup) (q : Pixel) :
    q ∈ ((fb.draw ps).1.draw ps).1 ↔ q ∈ fb := by
  rw [(Frame.draw_spec ps _ hnd).1 q, (Frame.draw_spec ps fb hnd).1 q]; tauto

theorem place_eq_some (wrap : Switch) (size z q : Nat) : place wrap size z = some q ↔ Lands wrap size z q := by
  unfold place Lands
  split
  · next h => simp; omega
  · next h => cases wrap <;> simp <;> omega

theorem place_lt {wrap : Switch} {size z q : Nat} (h : 0 < size) (hp : place wrap size z = some q) : q < size := by
  rcases (place_eq_some _ _ _ _).mp hp with ⟨h1, rfl⟩ | ⟨-, -, rfl⟩
  · exact h1
  · exact Nat.mod_lt _ h

/-- Two offsets of one origin that fall on one coordinate are the same, if the sprite is no wider than the grid. -/
theorem lands_offset_unique {wrap : Switch} {size o k l q : Nat} (ho : o < size) (hk : k < size) (hl : l < size)
    (h1 : Lands wrap size (o + k) q) (h2 : Lands wrap size (o + l) q) : k = l := by
  have red : ∀ m, m < size → size ≤ o + m → (o + m) % size = o + m - size := by
    intro m hm hge
    rw [Nat.mod_eq_sub_mod hge, Nat.mod_eq_of_lt (by omega)]
  rcases h1 with ⟨a1, b1⟩ | ⟨a1, -, b1⟩ <;> rcases h2 with ⟨a2, b2⟩ | ⟨a2, -, b2⟩
  · omega
  · have := red l hl a2; omega
  · have := red k hk a1; omega
  · have := red k hk a1; have := red l hl a2; omega

theorem mem_rowPoints (wrap : Switch) (w col y : Nat) (bits : List Bool) (c : Nat) (q : Pixel) :
    q ∈ rowPoints wrap w col y c bits ↔
      q.y = y ∧ ∃ k, bits[k]? = some true ∧ place wrap w (col + (c + k)) = some q.x := by
  induction bits generalizing c with
  | nil => simp [rowPoints]
  | cons b bits ih =>
    have shift : (∃ k, (b :: bits)[k]? = some true ∧ place wrap w (col + (c + k)) = some q.x) ↔
        (b = true ∧ place wrap w (col + c) = some q.x) ∨
          ∃ k, bits[k]? = some true ∧ place wrap w (col + (c + 1 + k)) = some q.x := by
      constructor
      · rintro ⟨k, h1, h2⟩
        cases k with
        | zero => left; simpa using And.intro h1 h2
        | succ k =>
          right
          refine ⟨k, by simpa using h1, ?_⟩
          rw [← h2]; congr 1; omega
      · rintro (⟨h1, h2⟩ | ⟨k, h1, h2⟩)
        · exact ⟨0, by simpa using h1, by simpa using h2⟩
        · refine ⟨k + 1, by simpa using h1, ?_⟩
          rw [← h2]; congr 1; omega
    rw [shift]
    cases b with
    | false => simp [rowPoints, ih]
    | true =>
      simp only [rowPoints]
      split
      · next x hx =>
        rw [List.mem_cons, ih, hx]
        simp only [true_and, Option.some.injEq]
        constructor
        · rintro (rfl | ⟨h1, h2⟩)
          · exact ⟨rfl, .inl rfl⟩
          · exact ⟨h1, .inr h2⟩
        · rintro ⟨h1, h2 | h2⟩
          · left; cases q; simp_all
          · exact .inr ⟨h1, h2⟩
      · next hx => rw [ih, hx]; simp

theorem mem_spriteRowPoints (wrap : Switch) (w h col z : Nat) (bits : List Bool) (q : Pixel) :
    q ∈ spriteRowPoints wrap w h col z bits ↔
      place wrap h z = some q.y ∧ ∃ c, bits[c]? = some true ∧ place wrap w (col + c) = some q.x := by
  unfold spriteRowPoints
  cases place wrap h z with
  | none => simp
  | some y => simp [mem_rowPoints, eq_comm]

theorem mem_spritePoints (wrap : Switch) (w h col row : Nat) (rows : List (List Byte)) (r : Nat) (q : Pixel) :
    q ∈ spritePoints wrap w h col row r rows ↔
      ∃ k bytes, rows[k]? = some bytes ∧ place wrap h (row + (r + k)) = some q.y ∧
        ∃ c, (rowBits bytes)[c]? = some true ∧ place wrap w (col + c) = some q.x := by
  induction rows generalizing r with
  | nil => simp [spritePoints]
  | cons bytes rows ih =>
    rw [spritePoints, List.mem_append, ih, mem_spriteRowPoints]
    constructor
    · rintro (h1 | ⟨k, bs, hk, hy, hc⟩)
      · exact ⟨0, bytes, by simp, by simpa using h1.1, h1.2⟩
      · refine ⟨k + 1, bs, by simpa using hk, ?_, hc⟩
        rw [← hy]; congr 1; omega
    · rintro ⟨k, bs, hk, hy, hc⟩
      cases k with
      | zero =>
        left
        obtain rfl : bytes = bs := by simpa using hk
        exact ⟨by simpa using hy, hc⟩
      | succ k =>
        right
        refine ⟨k, bs, by simpa using hk, ?_, hc⟩
        rw [← hy]; congr 1; omega

theorem nodup_rowPoints {wrap : Switch} {w col : Nat} (y : Nat) (hcol : col < w) (bits : List Bool) (c : Nat)
    (hlen : c + bits.length ≤ w) : (rowPoints wrap w col y c bits).Nodup := by
  induction bits generalizing c with
  | nil => simp [rowPoints]
  | cons b bits ih =>
    simp only [List.length_cons] at hlen
    have ih' := ih (c + 1) (by omega)
    cases b with
    | false => exact ih'
    | true =>
      simp only [rowPoints]
      split
      · next x hx =>
        refine List.nodup_cons.mpr ⟨fun hmem => ?_, ih'⟩
        obtain ⟨-, k, hk, hpk⟩ := (mem_rowPoints _ _ _ _ _ _ _).mp hmem
        have hlt : k < bits.length := by
          by_contra hge
          rw [List.getElem?_eq_none (by omega)] at hk
          simp at hk
        have := lands_offset_unique hcol (show c < w by omega) (show c + 1 + k < w by omega)
          ((place_eq_some _ _ _ _).mp hx) ((place_eq_some _ _ _ _).mp hpk)
        omega
      · exact ih'

/-- The points of a sprite are distinct when the sprite is no larger than the grid (R126, R127: 8, 16 < W and 15, 16 < H). -/
theorem nodup_spritePoints {wrap : Switch} {w h col row : Nat} (hcol : col < w) (hrow : row < h)
    (rows : List (List Byte)) (r : Nat) (hlen : r + rows.length ≤ h)
    (hwide : ∀ bytes ∈ rows, (rowBits bytes).length ≤ w) : (spritePoints wrap w h col row r rows).Nodup := by
  induction rows generalizing r with
  | nil => simp [spritePoints]
  | cons bytes rows ih =>
    simp only [List.length_cons] at hlen
    refine List.nodup_append.mpr ⟨?_, ih (r + 1) (by omega) fun bs hbs => hwide bs (by simp [hbs]), ?_⟩
    · unfold spriteRowPoints
      split
      · exact nodup_rowPoints _ hcol _ _ (by simpa using hwide bytes (by simp))
      · exact List.nodup_nil
    · intro p hp q hq e
      subst e
      obtain ⟨hy, -⟩ := (mem_spriteRowPoints _ _ _ _ _ _ _).mp hp
      obtain ⟨k, bs, hk, hyk, -⟩ := (mem_spritePoints _ _ _ _ _ _ _ _).mp hq
      have hlt : k < rows.length := by
        by_contra hge
        rw [List.getElem?_eq_none (by omega)] at hk
        simp at hk
      have := lands_offset_unique hrow (show r < h by omega) (show r + 1 + k < h by omega)
        ((place_eq_some _ _ _ _).mp hy) ((place_eq_some _ _ _ _).mp hyk)
      omega

/-- Every point of a sprite lies on the grid (R128 a). -/
theorem spritePoints_on_grid {wrap : Switch} {w h col row : Nat} (hw : 0 < w) (hh : 0 < h) (rows : List (List Byte))
    (r : Nat) : ∀ p ∈ spritePoints wrap w h col row r rows, p.x < w ∧ p.y < h := by
  intro p hp
  obtain ⟨k, bs, -, hy, c, -, hx⟩ := (mem_spritePoints _ _ _ _ _ _ _ _).mp hp
  exact ⟨place_lt hw hx, place_lt hh hy⟩

theorem byteBits_getElem? (b : Byte) (c : Nat) :
    (byteBits b)[c]? = if c < 8 then some (b.getLsbD (7 - c)) else none := by
  by_cases h : c < 8 <;> simp [byteBits, h]

theorem byteBits_length (b : Byte) : (byteBits b).length = 8 := by simp [byteBits]

theorem rowBits_length (row : List Byte) : (rowBits row).length = 8 * row.length := by
  induction row with
  | nil => rfl
  | cons b row ih =>
    have : rowBits (b :: row) = byteBits b ++ rowBits row := rfl
    rw [this, List.length_append, byteBits_length, ih, List.length_cons]; omega

/-- Bit `c` of a row is bit `7 - c mod 8` of its byte `c / 8`. -/
theorem rowBits_getElem? (row : List Byte) (c : Nat) :
    (rowBits row)[c]? = row[c / 8]?.map fun b => b.getLsbD (7 - c % 8) := by
  induction row generalizing c with
  | nil => simp [rowBits]
  | cons b row ih =>
    have e : rowBits (b :: row) = byteBits b ++ rowBits row := rfl
    rw [e]
    by_cases h : c < 8
    · rw [List.getElem?_append_left (by rw [byteBits_length]; exact h), byteBits_getElem?, if_pos h,
        Nat.div_eq_of_lt h, Nat.mod_eq_of_lt h]
      rfl
    · rw [List.getElem?_append_right (by rw [byteBits_length]; omega), byteBits_length, ih]
      obtain ⟨k, rfl⟩ : ∃ k, c = k + 8 := ⟨c - 8, by omega⟩
      simp [Nat.add_div_right]

end Sys2Proof.Machine
end

