-- ==== Sys2Proof/Laws/Memory.lean ====
section
/-! SUPPORT. Memory: read after write, the bytes a write leaves alone, and the canonical form. -/

namespace Sys2Proof.Machine

/-- The bound in numbers (R56). -/
theorem inMemory_iff (a n : Nat) : inMemory a n ↔ a + n ≤ 4096 := Iff.rfl

variable {font : FontLo}

/-- The reset image, part by part (R51, R53). -/
theorem resetByte_fontLo (k : Nat) (h : k < 80) : resetByte font (0x050 + k) = font[k] := by
  have h1 : 0x050 ≤ 0x050 + k ∧ 0x050 + k < 0x050 + 80 := by omega
  simp only [resetByte, Config.fontLoBase, Config.fontLoLen, h1, if_true, and_self, Nat.add_sub_cancel_left]
  rw [List.getD_eq_getElem _ _ (by simpa using h)]
  simp

theorem resetByte_fontHi (k : Nat) (h : k < 160) : resetByte font (0x0A0 + k) = Config.fontHi k := by
  have h1 : ¬ (0x050 ≤ 0x0A0 + k ∧ 0x0A0 + k < 0x050 + 80) := by omega
  have h2 : 0x0A0 ≤ 0x0A0 + k ∧ 0x0A0 + k < 0x0A0 + 160 := by omega
  simp only [resetByte, Config.fontLoBase, Config.fontLoLen, Config.fontHiBase, Config.fontHiLen, h1, h2, if_true, if_false,
    and_self, Nat.add_sub_cancel_left]

theorem resetByte_zero (a : Nat) (h : ¬ (0x050 ≤ a ∧ a ≤ 0x13F)) : resetByte font a = 0 := by
  have h1 : ¬ (0x050 ≤ a ∧ a < 0x050 + 80) := by omega
  have h2 : ¬ (0x0A0 ≤ a ∧ a < 0x0A0 + 160) := by omega
  simp only [resetByte, Config.fontLoBase, Config.fontLoLen, Config.fontHiBase, Config.fontHiLen, h1, h2, if_false]

theorem Memory.read_erase_same (m : Memory) (a : Nat) : (m.erase a).read font a = resetByte font a := by
  induction m with
  | nil => rfl
  | cons c m ih =>
    by_cases h : c.1 = a <;> simp_all [Memory.erase, Memory.read]

theorem Memory.read_erase_other (m : Memory) {a b : Nat} (h : b ≠ a) : (m.erase a).read font b = m.read font b := by
  induction m with
  | nil => rfl
  | cons c m ih =>
    by_cases h1 : c.1 = a
    · have h2 : c.1 ≠ b := by omega
      simp_all [Memory.erase, Memory.read]
    · simp_all [Memory.erase, Memory.read]

theorem Memory.read_insert_other (m : Memory) {a b : Nat} (w : Byte) (h : b ≠ a) :
    (m.insert a w).read font b = m.read font b := by
  have hab : a ≠ b := fun e => h e.symm
  induction m with
  | nil => simp [Memory.insert, Memory.read, hab]
  | cons c m ih =>
    obtain ⟨d, u⟩ := c
    by_cases h1 : a < d <;> simp [Memory.insert, Memory.read, h1, hab, ih]

theorem Memory.read_insert_same (m : Memory) (a : Nat) (w : Byte) (h : ∀ c ∈ m, c.1 ≠ a) :
    (m.insert a w).read font a = w := by
  induction m with
  | nil => simp [Memory.insert, Memory.read]
  | cons c m ih =>
    obtain ⟨d, u⟩ := c
    have hd : d ≠ a := h (d, u) (by simp)
    by_cases h1 : a < d
    · simp [Memory.insert, Memory.read, h1]
    · simp [Memory.insert, Memory.read, h1, hd, ih fun c hc => h c (by simp [hc])]

theorem Memory.erase_no_entry (m : Memory) (a : Nat) : ∀ c ∈ m.erase a, c.1 ≠ a := by
  simp [Memory.erase]

/-- Reading what was just written. -/
@[simp] theorem Memory.read_write_same (m : Memory) (a : Nat) (w : Byte) : (m.write font a w).read font a = w := by
  unfold Memory.write
  split
  · next h => rw [Memory.read_erase_same, h]
  · exact Memory.read_insert_same _ _ _ (m.erase_no_entry a)

/-- A write leaves every other address alone. -/
theorem Memory.read_write_other (m : Memory) {a b : Nat} (w : Byte) (h : b ≠ a) :
    (m.write font a w).read font b = m.read font b := by
  unfold Memory.write
  split
  · exact m.read_erase_other h
  · rw [Memory.read_insert_other _ _ h, m.read_erase_other h]

/-- What a run of bytes written at `a` makes every address read as. -/
theorem Memory.read_writeList (m : Memory) (a b : Nat) (ws : List Byte) :
    (m.writeList font a ws).read font b = if a ≤ b then ws.getD (b - a) (m.read font b) else m.read font b := by
  induction ws generalizing m a with
  | nil => simp [Memory.writeList]
  | cons w ws ih =>
    rw [Memory.writeList, ih]
    by_cases h : b = a
    · subst h; simp
    · rw [Memory.read_write_other _ _ h]
      by_cases h1 : a ≤ b
      · obtain ⟨k, rfl⟩ : ∃ k, b = a + 1 + k := ⟨b - (a + 1), by omega⟩
        have e : a + 1 + k - a = k + 1 := by omega
        simp [h1, e]
      · have h2 : ¬ a + 1 ≤ b := by omega
        simp [h1, h2]

/-- Outside the run nothing changes. -/
theorem Memory.read_writeList_outside (m : Memory) (a b : Nat) (ws : List Byte) (h : ¬ (a ≤ b ∧ b < a + ws.length)) :
    (m.writeList font a ws).read font b = m.read font b := by
  rw [Memory.read_writeList]
  split
  · next h1 => rw [List.getD_eq_default]; omega
  · rfl

theorem Memory.wf_erase {m : Memory} (h : m.wf font) (a : Nat) : (m.erase a).wf font :=
  ⟨h.1.filter _, fun c hc => h.2 c (List.mem_filter.mp hc).1⟩

theorem Memory.mem_insert (m : Memory) (a : Nat) (w : Byte) (c : Host.Cell) :
    c ∈ m.insert a w ↔ c = (a, w) ∨ c ∈ m := by
  induction m with
  | nil => simp [Memory.insert]
  | cons d m ih =>
    obtain ⟨b, u⟩ := d
    by_cases h : a < b
    · simp [Memory.insert, h]
    · simp only [Memory.insert, h, if_false, List.mem_cons, ih]; tauto

theorem Memory.wf_insert {m : Memory} (h : m.wf font) {a : Nat} {w : Byte} (ha : a < Config.memSize) (hw : w ≠ resetByte font a)
    (hno : ∀ c ∈ m, c.1 ≠ a) : (m.insert a w).wf font := by
  refine ⟨?_, fun c hc => ?_⟩
  · obtain ⟨hp, -⟩ := h
    induction m with
    | nil => simp [Memory.insert]
    | cons d m ih =>
      obtain ⟨b, u⟩ := d
      rw [List.pairwise_cons] at hp
      have hb : b ≠ a := hno (b, u) (by simp)
      by_cases h1 : a < b
      · simp only [Memory.insert, h1, if_true, List.pairwise_cons]
        refine ⟨fun c hc => ?_, hp⟩
        rcases List.mem_cons.mp hc with rfl | hc
        · exact h1
        · exact Nat.lt_trans h1 (hp.1 c hc)
      · simp only [Memory.insert, h1, if_false, List.pairwise_cons]
        refine ⟨fun c hc => ?_, ih (fun c hc => hno c (by simp [hc])) hp.2⟩
        rcases (Memory.mem_insert _ _ _ _).mp hc with rfl | hc
        · show b < a
          omega
        · exact hp.1 c hc
  · rcases (Memory.mem_insert _ _ _ _).mp hc with rfl | hc
    · exact ⟨ha, hw⟩
    · exact h.2 c hc

/-- A write keeps the canonical form. -/
theorem Memory.wf_write {m : Memory} (h : m.wf font) {a : Nat} (w : Byte) (ha : a < Config.memSize) :
    (m.write font a w).wf font := by
  unfold Memory.write
  split
  · exact Memory.wf_erase h a
  · next hw => exact Memory.wf_insert (Memory.wf_erase h a) ha hw (m.erase_no_entry a)

/-- A run of writes inside memory keeps the canonical form. -/
theorem Memory.wf_writeList {m : Memory} (h : m.wf font) {a : Nat} (ws : List Byte) (ha : inMemory a ws.length) :
    (m.writeList font a ws).wf font := by
  induction ws generalizing m a with
  | nil => exact h
  | cons w ws ih =>
    simp only [inMemory, List.length_cons] at ha
    exact ih (Memory.wf_write h w (by omega)) (by simp only [inMemory]; omega)

theorem Memory.wf_nil : Memory.wf font [] := by simp [Memory.wf]

/-- In canonical form two memories that read alike are the same data. -/
theorem Memory.wf_ext {m n : Memory} (hm : m.wf font) (hn : n.wf font) (h : ∀ a, m.read font a = n.read font a) : m = n := by
  have absent : ∀ (m : Memory) (a : Nat), (∀ c ∈ m, a < c.1) → m.read font a = resetByte font a := by
    intro m a hlt
    induction m with
    | nil => rfl
    | cons c m ih =>
      have h1 := hlt c (by simp)
      have h2 : c.1 ≠ a := by omega
      simp only [Memory.read, h2, if_false]
      exact ih fun d hd => hlt d (by simp [hd])
  induction m generalizing n with
  | nil =>
    cases n with
    | nil => rfl
    | cons d n =>
      have := h d.1
      simp only [Memory.read, if_true] at this
      exact absurd this.symm (hn.2 d (by simp)).2
  | cons c m ih =>
    obtain ⟨hmp, hmv⟩ := hm
    rw [List.pairwise_cons] at hmp
    cases n with
    | nil =>
      have := h c.1
      simp only [Memory.read, if_true] at this
      exact absurd this (hmv c (by simp)).2
    | cons d n =>
      obtain ⟨hnp, hnv⟩ := hn
      rw [List.pairwise_cons] at hnp
      have hc := h c.1
      have hd := h d.1
      simp only [Memory.read, if_true] at hc hd
      have e : c.1 = d.1 := by
        rcases Nat.lt_trichotomy c.1 d.1 with lt | eq | gt
        · rw [if_neg (by omega), absent n c.1 fun x hx => Nat.lt_trans lt (hnp.1 x hx)] at hc
          exact absurd hc (hmv c (by simp)).2
        · exact eq
        · rw [if_neg (by omega), absent m d.1 fun x hx => Nat.lt_trans gt (hmp.1 x hx)] at hd
          exact absurd hd.symm (hnv d (by simp)).2
      have ev : c.2 = d.2 := by rw [if_pos e.symm] at hc; exact hc
      have tails : m = n := by
        refine ih ⟨hmp.2, fun x hx => hmv x (by simp [hx])⟩ ⟨hnp.2, fun x hx => hnv x (by simp [hx])⟩ fun a => ?_
        by_cases ha : a = c.1
        · rw [absent m a (by rw [ha]; exact hmp.1), absent n a (by rw [ha, e]; exact hnp.1)]
        · have := h a
          simp only [Memory.read] at this
          rwa [if_neg (by omega), if_neg (by omega)] at this
      rw [tails]
      congr 1
      exact Prod.ext e ev

section
variable (s : State)

@[simp] theorem State.setMem_readByte (m : Memory) (a : Nat) : (s.setMem m).readByte a = m.read s.params.fontLo a := rfl

theorem State.readBytes_length (a n : Nat) : (s.readBytes a n).length = n := by
  induction n generalizing a with
  | zero => rfl
  | succ n ih => simp [State.readBytes, ih]

theorem State.readBytes_getD (a n k : Nat) (d : Byte) (h : k < n) : (s.readBytes a n).getD k d = s.readByte (a + k) := by
  induction n generalizing a k with
  | zero => omega
  | succ n ih =>
    cases k with
    | zero => simp [State.readBytes]
    | succ k =>
      have e : a + (k + 1) = a + 1 + k := by omega
      rw [e, ← ih (a + 1) k (by omega)]
      simp [State.readBytes]

/-- What every address reads as after a run of stores. -/
theorem State.writeBytes_readByte (a b : Nat) (ws : List Byte) :
    (s.setMem (s.mem.writeList s.params.fontLo a ws)).readByte b =
      if a ≤ b then ws.getD (b - a) (s.readByte b) else s.readByte b :=
  Memory.read_writeList s.mem a b ws

end

end Sys2Proof.Machine
end

