-- ==== Sys2Proof/Laws/Ops.lean ====
section
/-! SUPPORT. One lemma for each shared operation: what it does to a register, a byte, a pixel. -/

namespace Sys2Proof.Machine

section
variable (s : State)

@[simp] theorem State.setV_getV (x y : Reg) (b : Byte) : (s.setV x b).getV y = if y = x then b else s.getV y := by
  simp only [State.getV, State.setV, Vector.getElem_set]
  by_cases h : y = x
  · simp [h]
  · have : ¬ x.val = y.val := fun e => h (Fin.ext e.symm)
    simp [h, this]

/-- The stack is full iff its depth is finite and reached (R29). -/
theorem State.stackFull_iff : s.stackFull = true ↔ ∃ d, s.params.stackDepth = some d ∧ d ≤ s.stack.length := by
  unfold State.stackFull
  split <;> simp_all

theorem loadRegs_getElem (bs : List Byte) (v : Vector Byte 16) (k : Nat) (x : Reg) :
    (loadRegs v k bs)[x.val] = if k ≤ x.val then bs.getD (x.val - k) v[x.val] else v[x.val] := by
  induction bs generalizing v k with
  | nil => simp [loadRegs]
  | cons b bs ih =>
    rw [loadRegs, ih, Vector.getElem_setIfInBounds x.isLt]
    by_cases h : k = x.val
    · subst h; simp
    · by_cases h1 : k ≤ x.val
      · have h2 : k + 1 ≤ x.val := by omega
        have e : x.val - k = x.val - (k + 1) + 1 := by omega
        simp [h, h1, h2, e]
      · have h2 : ¬ k + 1 ≤ x.val := by omega
        simp [h, h1, h2]

/-- Registers after a load from a list of bytes: the list's byte, or unchanged past its end. -/
theorem State.loadFirstRegs_getV (bs : List Byte) (x : Reg) :
    (s.loadFirstRegs bs).getV x = bs.getD x.val (s.getV x) := by
  have h := loadRegs_getElem bs s.v 0 x
  simp only [Nat.zero_le, if_true, Nat.sub_zero] at h
  exact h

theorem State.firstRegs_length (n : Nat) (h : n ≤ 16) : (s.firstRegs n).length = n := by simp [State.firstRegs, h]

/-- Byte `k` of the first `n` registers is `V[k]`. -/
theorem State.firstRegs_getD (n : Nat) (x : Reg) (d : Byte) (h : x.val < n) : (s.firstRegs n).getD x.val d = s.getV x := by
  have h1 : x.val < (s.firstRegs n).length := by simp [State.firstRegs]; omega
  rw [List.getD_eq_getElem _ _ h1]
  simp [State.firstRegs, State.getV]

/-- The prologue clears `V[15]` or does nothing (R110). -/
theorem State.vfPrologue_cases : s.vfPrologue = if s.quirks.vfReset = .on then s.setV VF 0 else s := by
  unfold State.vfPrologue; split <;> simp_all

@[simp] theorem State.vfPrologue_getV (x : Reg) : s.vfPrologue.getV x = s.aluOperand x := by
  rw [State.vfPrologue_cases, State.aluOperand]
  by_cases h : s.quirks.vfReset = .on <;> simp [h]

@[simp] theorem State.vfPrologue_i : s.vfPrologue.i = s.i := by unfold State.vfPrologue; split <;> rfl
@[simp] theorem State.vfPrologue_pc : s.vfPrologue.pc = s.pc := by unfold State.vfPrologue; split <;> rfl
@[simp] theorem State.vfPrologue_stack : s.vfPrologue.stack = s.stack := by unfold State.vfPrologue; split <;> rfl
@[simp] theorem State.vfPrologue_mem : s.vfPrologue.mem = s.mem := by unfold State.vfPrologue; split <;> rfl
@[simp] theorem State.vfPrologue_hires : s.vfPrologue.hires = s.hires := by unfold State.vfPrologue; split <;> rfl
@[simp] theorem State.vfPrologue_fb : s.vfPrologue.fb = s.fb := by unfold State.vfPrologue; split <;> rfl
@[simp] theorem State.vfPrologue_dt : s.vfPrologue.dt = s.dt := by unfold State.vfPrologue; split <;> rfl
@[simp] theorem State.vfPrologue_st : s.vfPrologue.st = s.st := by unfold State.vfPrologue; split <;> rfl
@[simp] theorem State.vfPrologue_quirks : s.vfPrologue.quirks = s.quirks := by unfold State.vfPrologue; split <;> rfl
@[simp] theorem State.vfPrologue_waiting : s.vfPrologue.waiting = s.waiting := by unfold State.vfPrologue; split <;> rfl
@[simp] theorem State.vfPrologue_ignore : s.vfPrologue.ignore = s.ignore := by unfold State.vfPrologue; split <;> rfl
@[simp] theorem State.vfPrologue_lastKey : s.vfPrologue.lastKey = s.lastKey := by unfold State.vfPrologue; split <;> rfl
@[simp] theorem State.vfPrologue_fault : s.vfPrologue.fault = s.fault := by unfold State.vfPrologue; split <;> rfl
@[simp] theorem State.vfPrologue_params : s.vfPrologue.params = s.params := by unfold State.vfPrologue; split <;> rfl
@[simp] theorem State.vfPrologue_pending : s.vfPrologue.pending = s.pending := by unfold State.vfPrologue; split <;> rfl
@[simp] theorem State.vfPrologue_inKeys : s.vfPrologue.inKeys = s.inKeys := by unfold State.vfPrologue; split <;> rfl
@[simp] theorem State.vfPrologue_inRnd : s.vfPrologue.inRnd = s.inRnd := by unfold State.vfPrologue; split <;> rfl
@[simp] theorem State.vfPrologue_inCount : s.vfPrologue.inCount = s.inCount := by unfold State.vfPrologue; split <;> rfl
@[simp] theorem State.vfPrologue_tone : s.vfPrologue.tone = s.tone := by unfold State.vfPrologue; split <;> rfl
@[simp] theorem State.vfPrologue_readByte (a : Nat) : s.vfPrologue.readByte a = s.readByte a := by
  unfold State.vfPrologue; split <;> rfl
@[simp] theorem State.vfPrologue_pixel (x y : Nat) : s.vfPrologue.pixel x y = s.pixel x y := by
  unfold State.vfPrologue; split <;> rfl

theorem State.width_pos : 0 < s.width := by unfold State.width gridWidth; split <;> omega
theorem State.height_pos : 0 < s.height := by unfold State.height gridHeight; split <;> omega
theorem State.width_ge : 64 ≤ s.width := by unfold State.width gridWidth; split <;> omega
theorem State.height_ge : 32 ≤ s.height := by unfold State.height gridHeight; split <;> omega

theorem State.spriteRows_length (a bpr rows : Nat) : (s.spriteRows a bpr rows).length = rows := by
  induction rows generalizing a with
  | zero => rfl
  | succ rows ih => simp [State.spriteRows, ih]

/-- Row `k` of a sprite is the run of `bpr` bytes at `a + k * bpr` (R126, R127). -/
theorem State.spriteRows_getElem? (a bpr rows k : Nat) :
    (s.spriteRows a bpr rows)[k]? = if k < rows then some (s.readBytes (a + k * bpr) bpr) else none := by
  induction rows generalizing a k with
  | zero => simp [State.spriteRows]
  | succ rows ih =>
    cases k with
    | zero => simp [State.spriteRows]
    | succ k =>
      have e : a + bpr + k * bpr = a + (k + 1) * bpr := by rw [Nat.add_mul]; omega
      simp [State.spriteRows, ih, e]

/-- The points of a draw are the pixels its sprite covers (R125, R129). -/
theorem State.mem_drawPoints (x y : Reg) (rows bpr px py : Nat) :
    Pixel.mk px py ∈ s.drawPoints x y rows bpr ↔ s.SpriteCovers x y rows bpr px py := by
  unfold State.drawPoints State.SpriteCovers State.spriteBit State.originCol State.originRow
  rw [mem_spritePoints]
  constructor
  · rintro ⟨k, bytes, hk, hy, c, hc, hx⟩
    rw [State.spriteRows_getElem?] at hk
    split at hk
    · next hlt =>
      obtain rfl := Option.some.inj hk
      rw [rowBits_getElem?] at hc
      have hcb : c / 8 < bpr := by
        by_contra hge
        rw [List.getElem?_eq_none (by rw [State.readBytes_length]; omega)] at hc
        simp at hc
      refine ⟨k, c, hlt, by omega, ?_, (place_eq_some _ _ _ _).mp hx, (place_eq_some _ _ _ _).mp (by simpa using hy)⟩
      rw [← State.readBytes_getD s _ bpr (c / 8) 0 hcb]
      rw [Option.map_eq_some_iff] at hc
      obtain ⟨b, hb, hbit⟩ := hc
      rw [List.getD_eq_getElem?_getD, hb]
      exact hbit
    · simp at hk
  · rintro ⟨r, c, hr, hc, hbit, hx, hy⟩
    refine ⟨r, _, by rw [State.spriteRows_getElem?, if_pos hr], by simpa using (place_eq_some _ _ _ _).mpr hy, c, ?_,
      (place_eq_some _ _ _ _).mpr hx⟩
    have hcb : c / 8 < bpr := by omega
    rw [rowBits_getElem?]
    rw [← State.readBytes_getD s _ bpr (c / 8) 0 hcb, List.getD_eq_getElem _ _ (by rw [State.readBytes_length]; exact hcb)]
      at hbit
    rw [List.getElem?_eq_getElem (by rw [State.readBytes_length]; exact hcb)]
    simp [hbit]

/-- The points of a draw are distinct, for a sprite no larger than the smaller grid (R126, R127). -/
theorem State.nodup_drawPoints (x y : Reg) (rows bpr : Nat) (hr : rows ≤ 32) (hb : 8 * bpr ≤ 64) :
    (s.drawPoints x y rows bpr).Nodup := by
  refine nodup_spritePoints (Nat.mod_lt _ s.width_pos) (Nat.mod_lt _ s.height_pos) _ _ ?_ ?_
  · rw [State.spriteRows_length]; have := s.height_ge; omega
  · intro bytes hbytes
    obtain ⟨k, hk, hget⟩ := List.mem_iff_getElem.mp hbytes
    have := State.spriteRows_getElem? s s.i.toNat bpr rows k
    rw [List.getElem?_eq_getElem hk, hget] at this
    split at this
    · rw [Option.some.inj this, rowBits_length, State.readBytes_length]; have := s.width_ge; omega
    · simp at this

theorem State.draw_inside (x y : Reg) (rows bpr : Nat) (h : inMemory s.i.toNat (rows * bpr)) :
    s.draw x y rows bpr =
      (s.setFb (s.fb.draw (s.drawPoints x y rows bpr)).1).setV VF (flag (s.fb.draw (s.drawPoints x y rows bpr)).2) := by
  simp only [State.draw, if_pos h]

theorem State.draw_outside (x y : Reg) (rows bpr : Nat) (h : ¬ inMemory s.i.toNat (rows * bpr)) :
    s.draw x y rows bpr = s.raiseOutOfBounds s.i := by
  simp only [State.draw, if_neg h]

/-- What the host reads of `FAULT` (R38, R150). -/
theorem State.getFault_eq : s.getFault = portOf s.fault := by
  unfold State.getFault
  rcases s.fault with _ | ⟨c, ia, info⟩
  · rfl
  · cases c <;> rfl

theorem toNat_outOfBoundsInfo (a : Word) : (outOfBoundsInfo a).toNat = max a.toNat 4096 := by
  have := a.isLt
  simp only [outOfBoundsInfo, BitVec.toNat_ofNat, Config.memSize]; omega

theorem toNat_extendByte (b : Byte) : (extendByte b).toNat = b.toNat := by
  have := b.isLt
  simp [extendByte]; omega

theorem toNat_extendNNN (a : Addr12) : (extendNNN a).toNat = a.toNat := by
  have := a.isLt
  simp [extendNNN]; omega

/-- Frames: nothing changed is a frame for any list, and a frame may list more. -/
theorem KeptExcept.rfl' (l : List Part) : KeptExcept l s s := by constructor <;> simp

end

theorem KeptExcept.mono {l l' : List Part} {s t : State} (h : KeptExcept l s t) (hl : ∀ p ∈ l, p ∈ l') :
    KeptExcept l' s t where
  regs x hx := h.regs x fun hm => hx (hl _ hm)
  index hx := h.index fun hm => hx (hl _ hm)
  pc hx := h.pc fun hm => hx (hl _ hm)
  stack hx := h.stack fun hm => hx (hl _ hm)
  memory b hb := h.memory b fun ⟨a, n, hm, h1⟩ => hb ⟨a, n, hl _ hm, h1⟩
  hires hx := h.hires fun hm => hx (hl _ hm)
  pixels hx := h.pixels fun hm => hx (hl _ hm)
  delay hx := h.delay fun hm => hx (hl _ hm)
  sound hx := h.sound fun hm => hx (hl _ hm)
  keyWait hx := h.keyWait fun hm => hx (hl _ hm)
  quirks hx := h.quirks fun hm => hx (hl _ hm)
  fault hx := h.fault fun hm => hx (hl _ hm)
  host hx := h.host fun hm => hx (hl _ hm)
  params := h.params

/-- Frames compose. -/
theorem KeptExcept.trans {l : List Part} {s t u : State} (h : KeptExcept l s t) (g : KeptExcept l t u) :
    KeptExcept l s u where
  regs x hx := (g.regs x hx).trans (h.regs x hx)
  index hx := (g.index hx).trans (h.index hx)
  pc hx := (g.pc hx).trans (h.pc hx)
  stack hx := (g.stack hx).trans (h.stack hx)
  memory b hb := (g.memory b hb).trans (h.memory b hb)
  hires hx := (g.hires hx).trans (h.hires hx)
  pixels hx x y := (g.pixels hx x y).trans (h.pixels hx x y)
  delay hx := (g.delay hx).trans (h.delay hx)
  sound hx := (g.sound hx).trans (h.sound hx)
  keyWait hx := by
    obtain ⟨a, b, c⟩ := h.keyWait hx
    obtain ⟨d, e, f⟩ := g.keyWait hx
    exact ⟨d.trans a, e.trans b, f.trans c⟩
  quirks hx := (g.quirks hx).trans (h.quirks hx)
  fault hx := (g.fault hx).trans (h.fault hx)
  host hx := by
    obtain ⟨a, b, c, d, e⟩ := h.host hx
    obtain ⟨a', b', c', d', e'⟩ := g.host hx
    exact ⟨a'.trans a, b'.trans b, c'.trans c, d'.trans d, e'.trans e⟩
  params := g.params.trans h.params

/-- One lemma per update: the part it may change. -/
theorem KeptExcept.setV (s : State) (x : Reg) (b : Byte) : KeptExcept [.reg x] s (s.setV x b) := by
  constructor <;> simp +contextual
theorem KeptExcept.setI (s : State) (a : Word) : KeptExcept [.index] s (s.setI a) := by constructor <;> simp
theorem KeptExcept.setPc (s : State) (a : Word) : KeptExcept [.pc] s (s.setPc a) := by constructor <;> simp
theorem KeptExcept.setStack (s : State) (l : List Word) : KeptExcept [.stack] s (s.setStack l) := by constructor <;> simp
theorem KeptExcept.setFb (s : State) (f : Frame) : KeptExcept [.pixels] s (s.setFb f) := by constructor <;> simp
theorem KeptExcept.setMode (s : State) (h : Bool) : KeptExcept [.hires, .pixels] s (s.setMode h) := by
  constructor <;> simp
theorem KeptExcept.setDt (s : State) (b : Byte) : KeptExcept [.delay] s (s.setDt b) := by constructor <;> simp
theorem KeptExcept.setSt (s : State) (b : Byte) : KeptExcept [.sound] s (s.setSt b) := by constructor <;> simp
theorem KeptExcept.setKeyWait (s : State) (w : Bool) (g : BitVec 16) (k : Option Key) :
    KeptExcept [.keyWait] s (s.setKeyWait w g k) := by constructor <;> simp
theorem KeptExcept.setQuirks (s : State) (q : Quirks) : KeptExcept [.quirks] s (s.setQuirks q) := by constructor <;> simp
theorem KeptExcept.latch (s : State) (a : Word) (c : Cause) (n : Word) : KeptExcept [.pc, .fault] s (s.latch a c n) := by
  constructor <;> simp
theorem KeptExcept.setPending (s : State) (es : List Event) : KeptExcept [.host] s (s.setPending es) := by
  constructor <;> simp
theorem KeptExcept.setInputs (s : State) (k : BitVec 16) (r : Byte) : KeptExcept [.host] s (s.setInputs k r) := by
  constructor <;> simp
theorem KeptExcept.drawInputs (s : State) : KeptExcept [.host] s s.drawInputs := by constructor <;> simp
theorem KeptExcept.setTone (s : State) (b : Bool) : KeptExcept [.host] s (s.setTone b) := by constructor <;> simp
theorem KeptExcept.vfPrologue (s : State) : KeptExcept [.reg VF] s s.vfPrologue := by
  unfold State.vfPrologue
  split
  · exact KeptExcept.setV s VF 0
  · exact KeptExcept.rfl' s _

/-- Stores change at most the bytes stored. -/
theorem KeptExcept.writeBytes (s : State) (a n : Nat) (bs : List Byte) (h : bs.length = n) :
    KeptExcept [.bytes a n] s (s.writeBytes a bs) := by
  constructor <;> simp
  intro b hb
  refine Memory.read_writeList_outside _ _ _ _ fun hin => hb ⟨a, n, by simp, hin.1, ?_⟩
  omega

end Sys2Proof.Machine
end

