-- ==== Sys2Proof/Laws/PerInstr.lean ====
section
/-! SUPPORT. Per instruction: the encoder's word matches the instruction's row of the opcode map (R75, R78). -/

namespace Sys2Proof.Laws.TableRow

/-- The word of `i` under the mask of its row is the row's match. -/
def Statement (i : Instr) : Prop := encodeWord i &&& i.row.mask = i.row.bits

theorem scd (n : Nibble) : Statement (.scd n) :=
  (packWord_and _ _ _ _ 0xF 0xF 0xF 0x0).trans (by simp; rfl)

theorem cls : Statement (.cls) := rfl

theorem ret : Statement (.ret) := rfl

theorem scr : Statement (.scr) := rfl

theorem scl : Statement (.scl) := rfl

theorem exit : Statement (.exit) := rfl

theorem low : Statement (.low) := rfl

theorem high : Statement (.high) := rfl

theorem jp (nnn : Addr12) : Statement (.jp nnn) :=
  (packWord_and _ _ _ _ 0xF 0x0 0x0 0x0).trans (by simp; rfl)

theorem call (nnn : Addr12) : Statement (.call nnn) :=
  (packWord_and _ _ _ _ 0xF 0x0 0x0 0x0).trans (by simp; rfl)

theorem seI (x : Reg) (nn : Byte) : Statement (.seI x nn) :=
  (packWord_and _ _ _ _ 0xF 0x0 0x0 0x0).trans (by simp; rfl)

theorem sneI (x : Reg) (nn : Byte) : Statement (.sneI x nn) :=
  (packWord_and _ _ _ _ 0xF 0x0 0x0 0x0).trans (by simp; rfl)

theorem seR (x : Reg) (y : Reg) : Statement (.seR x y) :=
  (packWord_and _ _ _ _ 0xF 0x0 0x0 0xF).trans (by simp; rfl)

theorem sneR (x : Reg) (y : Reg) : Statement (.sneR x y) :=
  (packWord_and _ _ _ _ 0xF 0x0 0x0 0xF).trans (by simp; rfl)

theorem ldI (x : Reg) (nn : Byte) : Statement (.ldI x nn) :=
  (packWord_and _ _ _ _ 0xF 0x0 0x0 0x0).trans (by simp; rfl)

theorem addI (x : Reg) (nn : Byte) : Statement (.addI x nn) :=
  (packWord_and _ _ _ _ 0xF 0x0 0x0 0x0).trans (by simp; rfl)

theorem ldR (x : Reg) (y : Reg) : Statement (.ldR x y) :=
  (packWord_and _ _ _ _ 0xF 0x0 0x0 0xF).trans (by simp; rfl)

theorem orR (x : Reg) (y : Reg) : Statement (.orR x y) :=
  (packWord_and _ _ _ _ 0xF 0x0 0x0 0xF).trans (by simp; rfl)

theorem andR (x : Reg) (y : Reg) : Statement (.andR x y) :=
  (packWord_and _ _ _ _ 0xF 0x0 0x0 0xF).trans (by simp; rfl)

theorem xorR (x : Reg) (y : Reg) : Statement (.xorR x y) :=
  (packWord_and _ _ _ _ 0xF 0x0 0x0 0xF).trans (by simp; rfl)

theorem addR (x : Reg) (y : Reg) : Statement (.addR x y) :=
  (packWord_and _ _ _ _ 0xF 0x0 0x0 0xF).trans (by simp; rfl)

theorem sub (x : Reg) (y : Reg) : Statement (.sub x y) :=
  (packWord_and _ _ _ _ 0xF 0x0 0x0 0xF).trans (by simp; rfl)

theorem shr (x : Reg) (y : Reg) : Statement (.shr x y) :=
  (packWord_and _ _ _ _ 0xF 0x0 0x0 0xF).trans (by simp; rfl)

theorem subn (x : Reg) (y : Reg) : Statement (.subn x y) :=
  (packWord_and _ _ _ _ 0xF 0x0 0x0 0xF).trans (by simp; rfl)

theorem shl (x : Reg) (y : Reg) : Statement (.shl x y) :=
  (packWord_and _ _ _ _ 0xF 0x0 0x0 0xF).trans (by simp; rfl)

theorem ldIdx (nnn : Addr12) : Statement (.ldIdx nnn) :=
  (packWord_and _ _ _ _ 0xF 0x0 0x0 0x0).trans (by simp; rfl)

theorem jpOff (nnn : Addr12) : Statement (.jpOff nnn) :=
  (packWord_and _ _ _ _ 0xF 0x0 0x0 0x0).trans (by simp; rfl)

theorem rnd (x : Reg) (nn : Byte) : Statement (.rnd x nn) :=
  (packWord_and _ _ _ _ 0xF 0x0 0x0 0x0).trans (by simp; rfl)

theorem drw (x : Reg) (y : Reg) (n : Nibble) : Statement (.drw x y n) :=
  (packWord_and _ _ _ _ 0xF 0x0 0x0 0x0).trans (by simp; rfl)

theorem drw16 (x : Reg) (y : Reg) : Statement (.drw16 x y) :=
  (packWord_and _ _ _ _ 0xF 0x0 0x0 0xF).trans (by simp; rfl)

theorem skp (x : Reg) : Statement (.skp x) :=
  (packWord_and _ _ _ _ 0xF 0x0 0xF 0xF).trans (by simp; rfl)

theorem sknp (x : Reg) : Statement (.sknp x) :=
  (packWord_and _ _ _ _ 0xF 0x0 0xF 0xF).trans (by simp; rfl)

theorem ldVxDt (x : Reg) : Statement (.ldVxDt x) :=
  (packWord_and _ _ _ _ 0xF 0x0 0xF 0xF).trans (by simp; rfl)

theorem ldVxK (x : Reg) : Statement (.ldVxK x) :=
  (packWord_and _ _ _ _ 0xF 0x0 0xF 0xF).trans (by simp; rfl)

theorem ldDtVx (x : Reg) : Statement (.ldDtVx x) :=
  (packWord_and _ _ _ _ 0xF 0x0 0xF 0xF).trans (by simp; rfl)

theorem ldStVx (x : Reg) : Statement (.ldStVx x) :=
  (packWord_and _ _ _ _ 0xF 0x0 0xF 0xF).trans (by simp; rfl)

theorem addIdx (x : Reg) : Statement (.addIdx x) :=
  (packWord_and _ _ _ _ 0xF 0x0 0xF 0xF).trans (by simp; rfl)

theorem ldF (x : Reg) : Statement (.ldF x) :=
  (packWord_and _ _ _ _ 0xF 0x0 0xF 0xF).trans (by simp; rfl)

theorem ldHf (x : Reg) : Statement (.ldHf x) :=
  (packWord_and _ _ _ _ 0xF 0x0 0xF 0xF).trans (by simp; rfl)

theorem ldB (x : Reg) : Statement (.ldB x) :=
  (packWord_and _ _ _ _ 0xF 0x0 0xF 0xF).trans (by simp; rfl)

theorem ldMemVx (x : Reg) : Statement (.ldMemVx x) :=
  (packWord_and _ _ _ _ 0xF 0x0 0xF 0xF).trans (by simp; rfl)

theorem ldVxMem (x : Reg) : Statement (.ldVxMem x) :=
  (packWord_and _ _ _ _ 0xF 0x0 0xF 0xF).trans (by simp; rfl)

end Sys2Proof.Laws.TableRow
end

