-- ==== Sys2Proof/Laws/Step.lean ====
section
/-! SUPPORT. Everything a step can do, said once: which event it serves, and for a STEP which of its three ways it takes. -/

namespace Sys2Proof.Machine

section
variable {s t u : State}

/-- A step whose next event is a STEP. -/
theorem step_of_stepIsNext (h : StepIsNext s u) : step s = stepEvent u := by
  rcases h with ⟨h, rfl⟩ | ⟨keys, rnd, es, h, rfl⟩ <;> simp [step, serveNext, h, serve]

/-- A step whose next event is another one. -/
theorem step_of_pending {e : Event} {es : List Event} (h : s.pending = e :: es) : step s = serve e (s.setPending es) := by
  simp [step, serveNext, h]

/-- Taking the event and its inputs changes nothing of CORE. -/
theorem StepIsNext.kept (h : StepIsNext s u) : KeptExcept [.host] s u := by
  rcases h with ⟨-, rfl⟩ | ⟨keys, rnd, es, -, rfl⟩
  · exact KeptExcept.rfl' _ _
  · exact (KeptExcept.setPending _ _).trans (KeptExcept.setInputs _ _ _)

theorem StepIsNext.pc_eq (h : StepIsNext s u) : u.pc = s.pc := h.kept.pc (by simp)

theorem StepIsNext.fault_eq (h : StepIsNext s u) : u.fault = s.fault := h.kept.fault (by simp)

theorem StepIsNext.readByte_eq (h : StepIsNext s u) (a : Nat) : u.readByte a = s.readByte a :=
  h.kept.memory a (by simp [Part.coversAddress])

theorem StepIsNext.fetchWord_eq (h : StepIsNext s u) : u.fetchWord = s.fetchWord := by
  simp [State.fetchWord, State.readWord, h.readByte_eq, h.pc_eq]

/-- A state always has a next event; either it is a STEP or it heads the list. -/
theorem next_event_cases (s : State) :
    (∃ u, StepIsNext s u) ∨ ∃ e es, s.pending = e :: es ∧ e.isStep = false := by
  cases h : s.pending with
  | nil => exact .inl ⟨s, .inl ⟨h, rfl⟩⟩
  | cons e es =>
    cases e with
    | step keys rnd => exact .inl ⟨_, .inr ⟨keys, rnd, es, h, rfl⟩⟩
    | _ => exact .inr ⟨_, _, rfl, rfl⟩

theorem stepEvent_running (h : s.fault = none) : stepEvent s = withFreshInputs (stepBody s) := by
  simp [stepEvent, h]

theorem stepEvent_faulted {f : FaultRecord} (h : s.fault = some f) : stepEvent s = .fault (.faulted f) := by
  simp [stepEvent, h]

/-- The three ways of a STEP's body: a decoded instruction, an illegal word, no word at `pc`. -/
theorem stepBody_decoded {i : Instr} (h : inMemory s.pc.toNat 2) (hd : decodeWord s.fetchWord = some i) :
    stepBody s = exec i (s.setPc (s.pc + 2)) := by
  simp only [stepBody, if_pos h, hd, State.advance_eq]

theorem stepBody_illegal (h : inMemory s.pc.toNat 2) (hd : decodeWord s.fetchWord = none) :
    stepBody s = .next (s.latch s.pc .unsupportedOpcode s.fetchWord) := by
  simp only [stepBody, if_pos h, hd]

theorem stepBody_outside (h : ¬ inMemory s.pc.toNat 2) :
    stepBody s = .next (s.latch s.pc .outOfBoundsAccess (outOfBoundsInfo s.pc)) := by
  simp only [stepBody, if_neg h]

/-- Inversion of a step that answers a next state. -/
theorem step_next_cases (h : step s = .next t) :
    (∃ u v, StepIsNext s u ∧ s.fault = none ∧ stepBody u = .next v ∧ t = v.drawInputs) ∨
      ∃ e es, s.pending = e :: es ∧ e.isStep = false ∧ serve e (s.setPending es) = .next t := by
  rcases next_event_cases s with ⟨u, hu⟩ | ⟨e, es, he, hs⟩
  · left
    rw [step_of_stepIsNext hu] at h
    cases hf : u.fault with
    | some f => rw [stepEvent_faulted hf] at h; cases h
    | none =>
      rw [stepEvent_running hf] at h
      cases hb : stepBody u with
      | next v =>
        rw [hb] at h
        cases h
        exact ⟨u, v, hu, by rw [← hu.fault_eq, hf], hb, rfl⟩
      | fault r => rw [hb] at h; cases h
      | refused r => rw [hb] at h; cases h
  · exact .inr ⟨e, es, he, hs, by rw [← step_of_pending he, h]⟩

/-- Inversion of a STEP's body that answers a next state. -/
theorem stepBody_next_cases (h : stepBody s = .next t) :
    (∃ i, inMemory s.pc.toNat 2 ∧ decodeWord s.fetchWord = some i ∧ exec i (s.setPc (s.pc + 2)) = .next t) ∨
      (inMemory s.pc.toNat 2 ∧ decodeWord s.fetchWord = none ∧ t = s.latch s.pc .unsupportedOpcode s.fetchWord) ∨
      (¬ inMemory s.pc.toNat 2 ∧ t = s.latch s.pc .outOfBoundsAccess (outOfBoundsInfo s.pc)) := by
  by_cases hm : inMemory s.pc.toNat 2
  · cases hd : decodeWord s.fetchWord with
    | some i => exact .inl ⟨i, hm, rfl, by rw [← stepBody_decoded hm hd, h]⟩
    | none =>
      rw [stepBody_illegal hm hd] at h
      cases h
      exact .inr (.inl ⟨hm, rfl, rfl⟩)
  · rw [stepBody_outside hm] at h
    cases h
    exact .inr (.inr ⟨hm, rfl⟩)

end

/-- A run of one step more. -/
theorem run_of_step {s t : State} (k : Nat) (h : step s = .next t) :
    Host.Core.run Sys2Proof.core (k + 1) s = Host.Core.run Sys2Proof.core k t := by
  have h' : Sys2Proof.core.step s = .next t := h
  simp [Host.Core.run, h']

@[simp] theorem withFreshInputs_next (s : State) : withFreshInputs (.next s) = .next s.drawInputs := rfl

end Sys2Proof.Machine
end

