-- ==== Sys2Proof/Tests/Slice0.lean ====
section
/-! SUPPORT. Tests, and a witness for every statement that has hypotheses. Expected values come from the spec: encodings from
30_encoding R78 and R90 to R146, results from the vectors of 95_test_vectors (their ids stand in the docstrings). -/

namespace Sys2Proof.Tests

open Sys2Proof.Machine

/-- Something read from the state an outcome leads to. -/
def seen {α : Type} (f : State → α) : Host.Outcome State Fault Refusal → Option α
  | .next s => some (f s)
  | .fault _ => none
  | .refused _ => none

/-- After reset, with a word at 0x200. -/
def at200 (w : Nat) : State := State.reset.withFetchWord 16 w

/-- A state with some registers set. -/
def withRegs (s : State) (l : List (Reg × Byte)) : State := l.foldl (fun t p => t.setV p.1 p.2) s

/-- A state with some pixels lit, listed row by row. -/
def withLit (s : State) (l : List (Nat × Nat)) : State := s.setFb (l.map fun p => ⟨p.1, p.2⟩)

/-- The lit pixels. -/
def lit (s : State) : List (Nat × Nat) := s.fb.map fun p => (p.x, p.y)

/-- Quirk settings B and C of section 4 of the vectors. -/
def quirksB : Quirks := { Quirks.default with vfReset := .on }
def quirksC : Quirks := { Quirks.default with shifting := .operandY }

/-- One step of an instruction of class 8 at 0x200: `V[x]`, `V[15]` after it. -/
def alu (q : Quirks) (w : Nat) (l : List (Reg × Byte)) (x : Reg) : Option (Byte × Byte) :=
  seen (fun t => (t.getV x, t.getV 15)) (step ((withRegs (at200 w) l).setQuirks q))

/-! ## Well-formedness and decoding -/

/-- R126: a height of 0 is not `DXYN`; R127: that word is `DXY0`. -/
theorem test_wellFormed_refuses_height_zero : (Instr.drw 0 1 0).wellFormed = false ∧ (Instr.drw 0 1 1).wellFormed = true := by
  decide

theorem test_decode_class0 :
    decode [0x00, 0xC7] = .instr (.scd 7) ∧ decode [0x00, 0xE0] = .instr .cls ∧ decode [0x00, 0xEE] = .instr .ret ∧
    decode [0x00, 0xFB] = .instr .scr ∧ decode [0x00, 0xFC] = .instr .scl ∧ decode [0x00, 0xFD] = .instr .exit ∧
    decode [0x00, 0xFE] = .instr .low ∧ decode [0x00, 0xFF] = .instr .high := by decide

theorem test_decode_class1to7_9 :
    decode [0x1A, 0xBC] = .instr (.jp 0xABC) ∧ decode [0x2D, 0xEF] = .instr (.call 0xDEF) ∧
    decode [0x31, 0x9A] = .instr (.seI 1 0x9A) ∧ decode [0x42, 0x8B] = .instr (.sneI 2 0x8B) ∧
    decode [0x53, 0x40] = .instr (.seR 3 4) ∧ decode [0x9E, 0xF0] = .instr (.sneR 14 15) ∧
    decode [0x65, 0x7C] = .instr (.ldI 5 0x7C) ∧ decode [0x76, 0x6D] = .instr (.addI 6 0x6D) := by decide

theorem test_decode_class8 :
    decode [0x81, 0x20] = .instr (.ldR 1 2) ∧ decode [0x83, 0x41] = .instr (.orR 3 4) ∧
    decode [0x85, 0x62] = .instr (.andR 5 6) ∧ decode [0x87, 0x83] = .instr (.xorR 7 8) ∧
    decode [0x89, 0xA4] = .instr (.addR 9 10) ∧ decode [0x8B, 0xC5] = .instr (.sub 11 12) ∧
    decode [0x8D, 0xE6] = .instr (.shr 13 14) ∧ decode [0x8F, 0x07] = .instr (.subn 15 0) ∧
    decode [0x82, 0x1E] = .instr (.shl 2 1) := by decide

theorem test_decode_classABCDE :
    decode [0xA1, 0x23] = .instr (.ldIdx 0x123) ∧ decode [0xB4, 0x56] = .instr (.jpOff 0x456) ∧
    decode [0xC7, 0x89] = .instr (.rnd 7 0x89) ∧ decode [0xD1, 0x2F] = .instr (.drw 1 2 15) ∧
    decode [0xD1, 0x20] = .instr (.drw16 1 2) ∧ decode [0xE3, 0x9E] = .instr (.skp 3) ∧
    decode [0xE4, 0xA1] = .instr (.sknp 4) := by decide

theorem test_decode_classF :
    decode [0xF0, 0x07] = .instr (.ldVxDt 0) ∧ decode [0xF1, 0x0A] = .instr (.ldVxK 1) ∧
    decode [0xF2, 0x15] = .instr (.ldDtVx 2) ∧ decode [0xF3, 0x18] = .instr (.ldStVx 3) ∧
    decode [0xF4, 0x1E] = .instr (.addIdx 4) ∧ decode [0xF5, 0x29] = .instr (.ldF 5) ∧
    decode [0xF6, 0x30] = .instr (.ldHf 6) ∧ decode [0xF7, 0x33] = .instr (.ldB 7) ∧
    decode [0xF8, 0x55] = .instr (.ldMemVx 8) ∧ decode [0xF9, 0x65] = .instr (.ldVxMem 9) := by decide

/-- Z14, X5 to X9. -/
theorem test_decode_illegal_low_classes :
    decodeWord 0x0000 = none ∧ decodeWord 0x00E1 = none ∧ decodeWord 0x00BF = none ∧ decodeWord 0x00D0 = none ∧
    decodeWord 0x0123 = none ∧ decodeWord 0x01E0 = none ∧ decodeWord 0x5121 = none ∧ decodeWord 0x912F = none := by decide

/-- A32, K10, F21. -/
theorem test_decode_illegal_high_classes :
    decodeWord 0x8008 = none ∧ decodeWord 0x800D = none ∧ decodeWord 0x800F = none ∧ decodeWord 0xE09F = none ∧
    decodeWord 0xE2FF = none ∧ decodeWord 0xF001 = none ∧ decodeWord 0xF075 = none ∧ decodeWord 0xF166 = none ∧
    decode [0x00] = .tooShort := by decide

theorem test_encode_bytes : encode (.drw 1 2 5) = [0xD1, 0x25] ∧ encode (.jp 0xFFE) = [0x1F, 0xFE] := by decide

/-- X10, and R79 for a word that is no row. -/
theorem test_decodeTableWord : decodeTableWord 16 0x00C0 = some (.scd 0) ∧ decodeTableWord 16 0x5121 = none := by decide

/-! ## Class 0 -/

/-- Z1, Z3. -/
theorem test_scd :
    seen lit (step (withLit (at200 0x00C5) [(10, 0), (63, 26), (0, 27), (10, 30)])) = some [(10, 5), (63, 31)] ∧
    seen lit (step (withLit ((at200 0x00CF).setMode true) [(0, 0), (127, 48), (127, 49)])) = some [(0, 15), (127, 63)] := by
  decide

/-- Z6. -/
theorem test_cls : seen (fun t => (lit t, t.hires, t.pc)) (step (withLit (at200 0x00E0) [(1, 1)])) = some ([], false, 0x202) := by
  decide

/-- Z11, Z12. -/
theorem test_ret :
    seen (fun t => (t.pc, t.stack)) (step ((at200 0x00EE).setStack [0x206, 0x300])) = some (0x206, [0x300]) ∧
    seen (fun t => (t.pc, t.getFault)) (step (at200 0x00EE)) = some (0x200, ⟨true, 2, 0x200, 0⟩) := by decide

/-- Z4. -/
theorem test_scr : seen lit (step (withLit (at200 0x00FB) [(0, 0), (59, 2), (60, 2)])) = some [(4, 0), (63, 2)] := by decide

/-- Z5, Z15. -/
theorem test_scl :
    seen lit (step (withLit (at200 0x00FC) [(3, 2), (4, 2), (63, 31)])) = some [(0, 2), (59, 31)] ∧
    seen lit (step (withLit (((at200 0x00FC).setMode true).withScrollStyle .legacy) [(3, 3)])) = some [] := by decide

/-- Z13. -/
theorem test_exit : seen (fun t => (t.pc, t.selfLoop)) (step (at200 0x00FD)) = some (0x200, true) := by decide

/-- Z7, Z10. -/
theorem test_low :
    seen (fun t => (lit t, t.width)) (step (withLit (at200 0x00FE) [(1, 1)])) = some ([], 64) ∧
    seen (fun t => (lit t, t.height)) (step (withLit ((at200 0x00FE).setMode true) [(100, 50)])) = some ([], 32) := by decide

/-- Z8, Z9. -/
theorem test_high :
    seen (fun t => (lit t, t.width, t.height)) (step (withLit (at200 0x00FF) [(1, 1)])) = some ([], 128, 64) ∧
    seen (fun t => (lit t, t.hires)) (step (withLit ((at200 0x00FF).setMode true) [(100, 50)])) = some ([], true) := by decide

/-! ## Classes 1 to 7 and 9 -/

/-- J1, J4. -/
theorem test_jp :
    seen (fun t => (t.pc, t.stack)) (step (at200 0x1ABC)) = some (0xABC, []) ∧
    seen (fun t => (t.pc, t.getFault)) (step (State.reset.setPc 0xFFF)) = some (0xFFF, ⟨true, 3, 0xFFF, 4096⟩) := by decide

/-- J5, J6. -/
theorem test_call :
    seen (fun t => (t.pc, t.stack)) (step (at200 0x2ABC)) = some (0xABC, [0x202]) ∧
    seen (fun t => (t.pc, t.stack, t.getFault))
      (step { (at200 0x2200).setStack [0x202, 0x202] with params := { Params.default with stackDepth := some 2 } }) =
      some (0x200, [0x202, 0x202], ⟨true, 4, 0x200, 0⟩) := by decide

/-- J8, J9. -/
theorem test_seI :
    seen State.pc (step (withRegs (at200 0x3A42) [(10, 0x42)])) = some 0x204 ∧
    seen State.pc (step (withRegs (at200 0x3A42) [(10, 0x43)])) = some 0x202 := by decide

/-- J10, J11. -/
theorem test_sneI :
    seen State.pc (step (withRegs (at200 0x4A42) [(10, 0x42)])) = some 0x202 ∧
    seen State.pc (step (withRegs (at200 0x4A42) [(10, 0x43)])) = some 0x204 := by decide

/-- J12, J13. -/
theorem test_seR :
    seen State.pc (step (withRegs (at200 0x5AB0) [(10, 1), (11, 1)])) = some 0x204 ∧
    seen State.pc (step (withRegs (at200 0x5AB0) [(10, 1), (11, 2)])) = some 0x202 := by decide

/-- J15, and R105 for unequal registers. -/
theorem test_sneR :
    seen State.pc (step (withRegs (at200 0x9AB0) [(10, 1), (11, 1)])) = some 0x202 ∧
    seen State.pc (step (withRegs (at200 0x9AB0) [(10, 1), (11, 2)])) = some 0x204 := by decide

/-- E1, for the flag register. -/
theorem test_ldI : seen (fun t => (t.getV 15, t.pc)) (step (at200 0x6F9D)) = some (0x9D, 0x202) := by decide

/-- R107: wraps, and no flag. -/
theorem test_addI : seen (fun t => (t.getV 1, t.getV 15)) (step (withRegs (at200 0x71FF) [(1, 2), (15, 7)])) = some (1, 7) := by
  decide

/-! ## Class 8 -/

/-- A1 under B, A2 under A and B. -/
theorem test_ldR :
    alu quirksB 0x8120 [(2, 0x5A), (15, 7)] 1 = some (0x5A, 0) ∧
    alu Quirks.default 0x81F0 [(1, 1), (15, 7)] 1 = some (7, 7) ∧
    alu quirksB 0x81F0 [(1, 1), (15, 7)] 1 = some (0, 0) := by decide

/-- A3. -/
theorem test_orR :
    alu Quirks.default 0x8121 [(1, 0xF0), (2, 0x0F), (15, 7)] 1 = some (0xFF, 7) ∧
    alu quirksB 0x8121 [(1, 0xF0), (2, 0x0F), (15, 7)] 1 = some (0xFF, 0) := by decide

/-- A4. -/
theorem test_andR :
    alu Quirks.default 0x8122 [(1, 0xF0), (2, 0x3C), (15, 7)] 1 = some (0x30, 7) ∧
    alu quirksB 0x8122 [(1, 0xF0), (2, 0x3C), (15, 7)] 1 = some (0x30, 0) := by decide

/-- A5, A7. -/
theorem test_xorR :
    alu Quirks.default 0x8123 [(1, 0xF0), (2, 0x3C)] 1 = some (0xCC, 0) ∧
    alu Quirks.default 0x8FF3 [(15, 0x5A)] 15 = some (0, 0) := by decide

/-- A8, A12 under A and B. -/
theorem test_addR :
    alu Quirks.default 0x8014 [(0, 0xFF), (1, 1)] 0 = some (0, 1) ∧
    alu Quirks.default 0x8F14 [(15, 0xC8), (1, 0x64)] 15 = some (1, 1) ∧
    alu quirksB 0x8F14 [(15, 0xC8), (1, 0x64)] 15 = some (0, 0) := by decide

/-- A14, A15. -/
theorem test_sub :
    alu Quirks.default 0x8015 [(0, 5), (1, 7)] 0 = some (0xFE, 0) ∧
    alu Quirks.default 0x8015 [(0, 7), (1, 7)] 0 = some (0, 1) := by decide

/-- A25 under A and C. -/
theorem test_shr :
    alu Quirks.default 0x8126 [(1, 5), (2, 0xF0)] 1 = some (2, 1) ∧
    alu quirksC 0x8126 [(1, 5), (2, 0xF0)] 1 = some (0x78, 0) := by decide

/-- A21, A22. -/
theorem test_subn :
    alu Quirks.default 0x8017 [(0, 5), (1, 7)] 0 = some (2, 1) ∧
    alu Quirks.default 0x8017 [(0, 7), (1, 5)] 0 = some (0xFE, 0) := by decide

/-- A29 under A and C. -/
theorem test_shl :
    alu Quirks.default 0x812E [(1, 0x81), (2, 0x40)] 1 = some (2, 1) ∧
    alu quirksC 0x812E [(1, 0x81), (2, 0x40)] 1 = some (0x80, 0) := by decide

/-! ## Classes A, B, C -/

/-- I1. -/
theorem test_ldIdx : seen (fun t => (t.i, t.pc)) (step (at200 0xAFFF)) = some (0xFFF, 0x202) := by decide

/-- B3, B5. -/
theorem test_jpOff :
    seen State.pc (step (withRegs (at200 0xBFFF) [(0, 0xFF)])) = some 0x10FE ∧
    seen State.pc (step ((withRegs (at200 0xB2FE) [(0, 4), (2, 0xFF)]).setQuirks { Quirks.default with jump := .offsetByX })) =
      some 0x1FD := by decide

/-- C1. -/
theorem test_rnd : seen (fun t => t.getV 3) (step ((at200 0xC30F).setInputs 0 0xA7)) = some 7 := by decide

/-! ## Class D -/

/-- D2, D6. -/
theorem test_drw :
    seen (fun t => (lit t, t.getV 15)) (step (withLit (((at200 0xD011).writeBytes 0x300 [0xC0]).setI 0x300) [(1, 0), (5, 5)])) =
      some ([(0, 0), (5, 5)], 1) ∧
    seen (fun t => (lit t, t.getV 15))
      (step (withRegs (((at200 0xD013).writeBytes 0x300 [0x80, 0x80, 0x80]).setI 0x300) [(1, 30)])) =
      some ([(0, 30), (0, 31)], 0) := by decide

/-- D7, D10. -/
theorem test_drw_wrap_and_fault :
    seen (fun t => (lit t, t.getV 15))
      (step ((withRegs (((at200 0xD013).writeBytes 0x300 [0x80, 0x80, 0x80]).setI 0x300) [(1, 30)]).setQuirks
        { Quirks.default with screenWrap := .on })) = some ([(0, 0), (0, 30), (0, 31)], 0) ∧
    seen (fun t => (lit t, t.getV 15, t.getFault)) (step (withLit (withRegs ((at200 0xD015).setI 4092) [(15, 9)]) [(0, 0)])) =
      some ([(0, 0)], 9, ⟨true, 3, 0x200, 4096⟩) := by decide

/-- D8, and D12 for the fault. -/
theorem test_drw16 :
    seen (fun t => (lit t, t.getV 15))
      (step (withRegs ((((at200 0xD010).writeBytes 0x300 [0x80, 0x01]).writeBytes 0x31E [0xFF, 0xFF]).setI 0x300)
        [(0, 56), (1, 17)])) = some ([(56, 17)], 0) ∧
    seen State.getFault (step ((at200 0xD010).setI 4065)) = some ⟨true, 3, 0x200, 4096⟩ := by decide

/-! ## Class E -/

/-- K1, K3. -/
theorem test_skp :
    seen State.pc (step (withRegs ((at200 0xE29E).setInputs 0x0080 0) [(2, 7)])) = some 0x204 ∧
    seen State.pc (step (withRegs ((at200 0xE29E).setInputs 0x0080 0) [(2, 0x17)])) = some 0x202 := by decide

/-- K4, K6. -/
theorem test_sknp :
    seen State.pc (step (withRegs ((at200 0xE2A1).setInputs 0x0080 0) [(2, 7)])) = some 0x202 ∧
    seen State.pc (step (withRegs ((at200 0xE2A1).setInputs 0x0080 0) [(2, 0x17)])) = some 0x204 := by decide

/-! ## Class F -/

/-- F1. -/
theorem test_ldVxDt : seen (fun t => t.getV 1) (step ((at200 0xF107).setDt 2)) = some 2 := by decide

/-- E7: key 5 held; the wait begins. Then P4: a release of 7 was recorded; it resolves. -/
theorem test_ldVxK :
    seen (fun t => (t.pc, t.waiting, t.ignore, t.lastKey)) (step ((at200 0xF20A).setInputs 0x0020 0)) =
      some (0x200, true, 0x0020, none) ∧
    seen (fun t => (t.pc, t.getV 2, t.waiting, t.ignore, t.lastKey)) (step ((at200 0xF20A).setKeyWait true 0x0020 (some 7))) =
      some (0x202, 7, false, 0, none) := by decide

/-- F2. -/
theorem test_ldDtVx : seen State.dt (step (withRegs (at200 0xF015) [(0, 3)])) = some 3 := by decide

/-- F3. -/
theorem test_ldStVx : seen State.st (step (withRegs (at200 0xF018) [(0, 3)])) = some 3 := by decide

/-- F6, F8. -/
theorem test_addIdx :
    seen (fun t => (t.i, t.getV 15)) (step (withRegs ((at200 0xF31E).setI 0xFFF) [(3, 1), (15, 7)])) = some (0x1000, 7) ∧
    seen State.i (step (withRegs ((at200 0xF31E).setI 0xFF80) [(3, 0xFF)])) = some 0x007F := by decide

/-- F9. -/
theorem test_ldF :
    seen State.i (step (withRegs (at200 0xF029) [(0, 0xF)])) = some 0x09B ∧
    seen State.i (step (withRegs (at200 0xF029) [(0, 0xFF)])) = some 0x54B := by decide

/-- F10. -/
theorem test_ldHf :
    seen State.i (step (withRegs (at200 0xF030) [(0, 3)])) = some 0x0BE ∧
    seen State.i (step (withRegs (at200 0xF030) [(0, 0xFF)])) = some 0xA96 := by decide

/-- E4, F13. -/
theorem test_ldB :
    seen (fun t => t.readBytes 0x300 3) (step (withRegs ((at200 0xF033).setI 0x300) [(0, 157)])) = some [1, 5, 7] ∧
    seen (fun t => (t.readBytes 4094 2, t.getFault)) (step (withRegs ((at200 0xF033).setI 4094) [(0, 123)])) =
      some ([0, 0], ⟨true, 3, 0x200, 4096⟩) := by decide

/-- F15 with the first and the last setting. -/
theorem test_ldMemVx :
    seen (fun t => (t.readBytes 0x400 5, t.i))
      (step (withRegs ((at200 0xF355).setI 0x400) [(0, 0x11), (1, 0x22), (2, 0x33), (3, 0x44), (4, 0x55)])) =
      some ([0x11, 0x22, 0x33, 0x44, 0], 0x400) ∧
    seen State.i (step (((at200 0xF355).setI 0x400).setQuirks { Quirks.default with regSaveLoad := .advanceByCountPlusOne })) =
      some 0x405 := by decide

/-- F16 with the first and the second setting. -/
theorem test_ldVxMem :
    seen (fun t => (t.getV 0, t.getV 3, t.getV 4, t.i))
      (step (withRegs (((at200 0xF365).writeBytes 0x400 [9, 8, 7, 6, 5]).setI 0x400) [(4, 0xEE)])) =
      some (9, 6, 0xEE, 0x400) ∧
    seen State.i (step (((at200 0xF365).setI 0x400).setQuirks { Quirks.default with regSaveLoad := .advanceByCount })) =
      some 0x404 := by decide

/-! ## Events, memory, reset -/

/-- T1, T4. -/
theorem test_tick :
    seen (fun t => (t.tone, t.dt, t.st)) (step (State.reset.setPending [.tick])) = some (false, 0, 0) ∧
    seen (fun t => (t.tone, t.dt, t.st)) (step (((State.reset.setDt 255).setSt 255).setPending [.tick])) =
      some (true, 254, 254) := by decide

/-- A STEP that overflows the stack, and one that returns from an empty one: the codes 4 and 2 of R150 (X11, Z12); none: zeros
(R38). -/
theorem test_getFault_codes :
    portOf (some ⟨.stackOverflow, 0x200, 0⟩) = ⟨true, 4, 0x200, 0⟩ ∧ portOf (some ⟨.stackUnderflow, 0x200, 0⟩) = ⟨true, 2, 0x200, 0⟩ ∧
    State.reset.getFault = ⟨false, 0, 0, 0⟩ := by decide

/-- T12, and P4 for a release that counts. -/
theorem test_keyRelease :
    seen State.lastKey (step (State.reset.setPending [.keyRelease 3])) = some none ∧
    seen State.lastKey (step ((State.reset.setKeyWait true 0x0020 none).setPending [.keyRelease 7])) = some (some 7) := by decide

/-- T7, T6. -/
theorem test_setQuirks :
    seen State.quirks (step (State.reset.setPending [.setQuirks 0x33])) =
      some ⟨.on, .operandY, .unchanged, .offsetByX, .on, .modern⟩ ∧
    seen State.quirks (step (State.reset.setPending [.setQuirks 0x0C])) = none := by decide

/-- T8: what a LOAD leaves and what it makes fresh. -/
theorem test_load :
    seen (fun t => (t.hires, lit t))
      (step ((withLit (State.reset.setMode true) [(100, 50)]).setPending [.load [0x00, 0xE0]])) = some (true, [(100, 50)]) ∧
    seen (fun t => (t.readBytes 0x200 2, t.readByte 0x300, t.getV 0))
      (step (((withRegs State.reset [(0, 7)]).writeBytes 0x300 [0x55]).setPending [.load [0x00, 0xE0]])) =
      some ([0x00, 0xE0], 0, 0) := by decide

/-- R161: the order of requests made at once. -/
theorem test_serviceOrder :
    serviceOrder [.step 1 2, .tick, .keyRelease 3, .setQuirks 4, .load [5], .por] =
      [.por, .load [5], .setQuirks 4, .keyRelease 3, .tick, .step 1 2] := by decide

/-- T13: after POR, no LOAD. -/
theorem test_step_after_reset : seen State.getFault (step State.reset) = some ⟨true, 1, 0x200, 0x0000⟩ := by decide

/-- R54: the glyph of 7, as P7 prints it. -/
theorem test_fontLo : State.reset.readBytes 0x073 5 = [0xF0, 0x10, 0x20, 0x40, 0x40] := by decide

/-- R54, R7: another `FONT_LO` is what memory holds after POR and after LOAD. -/
theorem test_fontLo_is_a_parameter :
    (State.resetWith { Params.default with fontLo := Vector.replicate 80 0xAB }).readByte 0x09F = 0xAB ∧
    seen (fun t => (t.readByte 0x050, t.readByte 0x200, t.readByte 0x140))
      (step ((State.resetWith { Params.default with fontLo := Vector.replicate 80 0xAB }).setPending [.load [0x12]])) =
      some (0xAB, 0x12, 0) := by decide

/-- Writing the byte an unlisted address reads as removes the entry. -/
theorem test_memory_canonical :
    (State.reset.writeBytes 0x300 [0x55]).mem = [(0x300, 0x55)] ∧
    ((State.reset.writeBytes 0x300 [0x55]).writeBytes 0x300 [0]).mem = [] := by decide

/-! ## Witnesses: a concrete state that meets all hypotheses of a statement together -/

/-- A machine that waits at an `FX0A` at 0x200, keys 5 and 9 ignored, no release recorded. -/
def waiting : State := (at200 0xF20A).setKeyWait true 0x0220 none

/-- A machine with a latched fault and one event to come. -/
def faultedWith (e : Event) : State := (State.reset.latch 0x200 .unsupportedOpcode 0).setPending [e]

theorem witness_DecodeOfEncodeIsTheInstruction : (Instr.drw 0 15 15).wellFormed = true := by decide

theorem witness_DecodingDropsNoBit : decodeWord 0xF265 = some (.ldVxMem 2) := by decide

/-- The first clause; the second where the row is the instruction's own, and where it is the overlapped one. -/
theorem witness_DecodingFollowsTheOpcodeMap :
    decodeWord 0xF265 = some (.ldVxMem 2) ∧ 0x6A2F &&& (Instr.ldI 0 0).row.mask = (Instr.ldI 0 0).row.bits ∧
    0xD120 &&& (Instr.drw 0 0 1).row.mask = (Instr.drw 0 0 1).row.bits := by decide

/-- With no event to come, and with a STEP to come. -/
theorem witness_StepRunsTheDecodedInstruction :
    (at200 0x00E0).fault = none ∧ StepIsNext (at200 0x00E0) (at200 0x00E0) ∧ inMemory (at200 0x00E0).pc.toNat 2 ∧
    decode [(at200 0x00E0).readByte 0x200, (at200 0x00E0).readByte 0x201] = .instr .cls :=
  ⟨rfl, .inl ⟨rfl, rfl⟩, by decide, by decide⟩

theorem witness_StepIsNext_with_an_event :
    StepIsNext ((at200 0x00E0).setPending [.step 5 6, .tick]) (((at200 0x00E0).setPending [.tick]).setInputs 5 6) :=
  .inr ⟨5, 6, [.tick], rfl, rfl⟩

/-- The lowest `pc` with no word at it. -/
theorem witness_FetchOutOfBoundsFaults :
    (State.reset.setPc 4095).fault = none ∧ StepIsNext (State.reset.setPc 4095) (State.reset.setPc 4095) ∧
    4095 ≤ (State.reset.setPc 4095).pc.toNat := ⟨rfl, .inl ⟨rfl, rfl⟩, by decide⟩

/-- The highest `pc` with a word at it. -/
theorem witness_IllegalWordFaults :
    (State.reset.setPc 4094).fault = none ∧ StepIsNext (State.reset.setPc 4094) (State.reset.setPc 4094) ∧
    inMemory (State.reset.setPc 4094).pc.toNat 2 ∧ decodeWord (State.reset.setPc 4094).fetchWord = none :=
  ⟨rfl, .inl ⟨rfl, rfl⟩, by decide, by decide⟩

theorem witness_FaultedMachineIsFrozen :
    (faultedWith (.step 0 0)).fault = some ⟨.unsupportedOpcode, 0x200, 0⟩ ∧
    StepIsNext (faultedWith (.step 0 0)) (((faultedWith (.step 0 0)).setPending []).setInputs 0 0) ∧
    (faultedWith .tick).pending = [.tick] ∧ (faultedWith (.keyRelease 3)).pending = [.keyRelease 3] ∧
    (faultedWith (.setQuirks 1)).pending = [.setQuirks 1] :=
  ⟨rfl, .inr ⟨0, 0, [], rfl, rfl⟩, rfl, rfl, rfl⟩

/-- The second clause at the last word of memory. -/
theorem witness_WithFetchWordRunsTheWord :
    decodeTableWord 16 0x00E0 = some .cls ∧ (State.reset.setPc 4094).fault = none ∧
    inMemory (State.reset.setPc 4094).pc.toNat 2 := by decide

theorem witness_FaultsAreExactlyThoseListed : State.reset.fault = none ∧ StepIsNext State.reset State.reset :=
  ⟨rfl, .inl ⟨rfl, rfl⟩⟩

theorem witness_FaultingStepChangesNothingElse :
    State.reset.fault = none ∧ StepIsNext State.reset State.reset ∧
    ∃ t, step State.reset = .next t ∧ t.fault = some ⟨.unsupportedOpcode, 0x200, 0⟩ :=
  ⟨rfl, .inl ⟨rfl, rfl⟩, _, rfl, by decide⟩

/-- One instruction that meets the premise of every clause. -/
theorem witness_StateIsWrittenOnlyByItsInstructions :
    (∃ t, exec (.jp 0xABC) State.reset = .next t) ∧ ¬ (Instr.jp 0xABC).storesToMemory ∧ ¬ (Instr.jp 0xABC).writesStack ∧
    ¬ (Instr.jp 0xABC).writesMode ∧ ¬ (Instr.jp 0xABC).writesFrame ∧ ¬ (Instr.jp 0xABC).writesIndex ∧
    (∀ x, Instr.jp 0xABC ≠ .ldDtVx x) ∧ (∀ x, Instr.jp 0xABC ≠ .ldStVx x) ∧ (∀ x, Instr.jp 0xABC ≠ .ldVxK x) :=
  ⟨⟨_, rfl⟩, id, id, id, id, id, nofun, nofun, nofun⟩

/-- A register next to the destination, and `V[15]` in a class-8 instruction that writes no flag, the quirk off. -/
theorem witness_RegistersAreWrittenOnlyAsNamed :
    (∃ t, exec (.ldVxMem 3) State.reset = .next t) ∧ ¬ (Instr.ldVxMem 3).namesAsDestination 4 ∧
    (∃ t, exec (.orR 1 2) State.reset = .next t) ∧ ¬ (Instr.orR 1 2).namesAsDestination VF ∧
    (VF = VF → ¬ (Instr.orR 1 2).writesFlag ∧ ¬ ((Instr.orR 1 2).isClass8 ∧ State.reset.quirks.vfReset = .on)) :=
  ⟨⟨_, rfl⟩, (by decide : ¬ (4 : Reg) ≤ 3), ⟨_, rfl⟩, (by decide : ¬ (1 : Reg) = VF), fun _ => ⟨id, fun h => nomatch h.2⟩⟩

theorem witness_RandomByteIsReadOnlyByRnd : ∀ x nn, Instr.drw 1 2 3 ≠ .rnd x nn := nofun

/-- An instruction that reads no keys, and an `FX0A` that is not a first execution. -/
theorem witness_HeldKeysAreReadOnlyByKeyInstructions :
    (∀ x, Instr.cls ≠ .skp x) ∧ (∀ x, Instr.cls ≠ .sknp x) ∧ ((∃ x, Instr.cls = .ldVxK x) → State.reset.waiting = true) ∧
    (∀ x, Instr.ldVxK 2 ≠ .skp x) ∧ (∀ x, Instr.ldVxK 2 ≠ .sknp x) ∧ waiting.waiting = true :=
  ⟨nofun, nofun, nofun, nofun, nofun, rfl⟩

/-- A machine in the middle of a key wait, which the invariant says most about. -/
theorem witness_StepKeepsTheInvariant : waiting.Inv ∧ ∃ t, step waiting = .next t :=
  ⟨{ memory := by decide, frame := by decide, pcRange := by decide, stackRange := List.forall_mem_nil _, stackDepth := nofun,
     idle := nofun, waitingAt := fun _ => ⟨by decide, by decide⟩, lastKey := nofun, faultAt := nofun },
    (waiting.setPc 0x200).drawInputs, rfl⟩

theorem witness_PowerOnResetsEverything : (waiting.setPending [.por]).pending = [.por] := rfl

/-- The longest image that fits and the shortest that does not. -/
theorem witness_LoadStartsTheProgramFresh :
    (State.reset.setPending [.load (List.replicate 3584 7)]).pending = [.load (List.replicate 3584 7)] ∧
    (List.replicate 3584 (7 : Byte)).length ≤ 3584 ∧
    (State.reset.setPending [.load (List.replicate 3585 7)]).pending = [.load (List.replicate 3585 7)] ∧
    3584 < (List.replicate 3585 (7 : Byte)).length :=
  ⟨rfl, by rw [List.length_replicate], rfl, by rw [List.length_replicate]; omega⟩

theorem witness_TickCountsBothTimersDown :
    (State.reset.setPending [.tick]).pending = [.tick] ∧ (State.reset.setPending [.tick]).fault = none ∧
    (faultedWith .tick).pending = [.tick] ∧ (faultedWith .tick).fault ≠ none := ⟨rfl, rfl, rfl, nofun⟩

/-- The last TICK that returns true, and the one after it. -/
theorem witness_ToneLastsAsManyTicksAsTheSoundTimer :
    ((State.reset.setSt 2).setPending [.tick, .tick, .tick]).fault = none ∧
    ((State.reset.setSt 2).setPending [.tick, .tick, .tick]).st.toNat = 2 ∧ 1 ≤ 2 ∧ 2 ≤ 2 ∧
    ((State.reset.setSt 2).setPending [.tick, .tick, .tick]).pending = List.replicate (2 + 1) .tick ++ [] := by decide

/-- A release that counts, and one of an ignored key. -/
theorem witness_KeyReleaseRecordsTheFirstQualifyingKey :
    (waiting.setPending [.keyRelease 7]).pending = [.keyRelease 7] ∧
    (waiting.fault = none ∧ waiting.waiting = true ∧ waiting.ignore.getLsbD 7 = false ∧ waiting.lastKey = none) ∧
    (waiting.setPending [.keyRelease 5]).pending = [.keyRelease 5] ∧
    ¬ (waiting.fault = none ∧ waiting.waiting = true ∧ waiting.ignore.getLsbD 5 = false ∧ waiting.lastKey = none) := by
  decide

/-- A bundle, the illegal field, the illegal bit. -/
theorem witness_SetQuirksReplacesTheBundle :
    (State.reset.setPending [.setQuirks quirksB.toBits]).fault = none ∧
    (State.reset.setPending [.setQuirks quirksB.toBits]).pending = [.setQuirks quirksB.toBits] ∧
    ((0x0C : Byte).getLsbD 3 = true ∧ (0x0C : Byte).getLsbD 2 = true) ∧ (0x80 : Byte).getLsbD 7 = true := by decide

/-- The last pixel of the low-resolution grid. -/
theorem witness_DisplayShowsTheGrid : ∃ row, State.reset.display[31]? = some row ∧ 63 < row.length :=
  ⟨List.replicate 64 false, by decide, by rw [List.length_replicate]; omega⟩

/-- The corner pixels of both grids lie inside. -/
theorem witness_ScrollDownMovesRows :
    63 < State.reset.width ∧ 31 < State.reset.height ∧ 127 < (State.reset.setMode true).width ∧
    63 < (State.reset.setMode true).height := by decide

theorem witness_ScrollSidewaysMovesColumns : 3 < State.reset.width ∧ 59 < State.reset.width ∧ 0 < State.reset.height := by
  decide

theorem witness_ReturnPopsTheStack : (State.reset.setStack [0x206]).stack = [0x206] ∧ State.reset.stack = [] := by decide

theorem witness_ExitIsASelfLoop :
    (at200 0x00FD).fault = none ∧ StepIsNext (at200 0x00FD) (at200 0x00FD) ∧ (at200 0x00FD).selfLoop = true :=
  ⟨rfl, .inl ⟨rfl, rfl⟩, by decide⟩

/-- A machine whose stack holds at most two return addresses. -/
def shallow : State := { State.reset with params := { Params.default with stackDepth := some 2 } }

/-- One free entry, and none. -/
theorem witness_CallPushesTheReturnAddress :
    (∀ d, (shallow.setStack [0x202]).params.stackDepth = some d → (shallow.setStack [0x202]).stack.length < d) ∧
    (shallow.setStack [0x202, 0x202]).params.stackDepth = some 2 ∧ 2 ≤ (shallow.setStack [0x202, 0x202]).stack.length :=
  ⟨fun d h => by cases h; decide, by decide, by decide⟩

theorem witness_CallThenReturnComesBack :
    (∀ d, (shallow.setStack [0x202]).params.stackDepth = some d → (shallow.setStack [0x202]).stack.length < d) ∧
    (∀ d, State.reset.params.stackDepth = some d → State.reset.stack.length < d) :=
  ⟨fun d h => by cases h; decide, nofun⟩

theorem witness_MoveAndLogic_and_the_flags : (14 : Reg) ≠ VF := by decide

/-- Both settings of the quirk. -/
theorem witness_ShiftsByOne :
    ((0 : Byte) = if (State.reset).quirks.shifting = .operandX then State.reset.aluOperand 1 else State.reset.aluOperand 2) ∧
    ((5 : Byte) = if ((withRegs State.reset [(2, 5)]).setQuirks quirksC).quirks.shifting = .operandX
      then ((withRegs State.reset [(2, 5)]).setQuirks quirksC).aluOperand 1
      else ((withRegs State.reset [(2, 5)]).setQuirks quirksC).aluOperand 2) := by decide

theorem witness_JumpWithOffset :
    State.reset.quirks.jump = .classic ∧
    (State.reset.setQuirks { Quirks.default with jump := .offsetByX }).quirks.jump = .offsetByX ∧
    (15 : Reg).val = (0xFFF : Addr12).toNat / 256 := by decide

theorem witness_RandomByteIsMasked : (0 : Byte) = 0 := rfl

/-- The last address at which a sprite fits and the first at which it does not, for both heights. -/
theorem witness_SpritesToggleThePixelsTheyCover :
    (State.reset.setI 4081).i.toNat + (15 : Nibble).toNat ≤ 4096 ∧ 4096 < (State.reset.setI 4082).i.toNat + (15 : Nibble).toNat ∧
    (State.reset.setI 4064).i.toNat + 32 ≤ 4096 ∧ 4096 < (State.reset.setI 4065).i.toNat + 32 := by decide

theorem witness_DrawingTwiceRestoresTheDisplay :
    (0 : Reg) ≠ VF ∧ (1 : Reg) ≠ VF ∧ (State.reset.setI 4081).i.toNat + (15 : Nibble).toNat ≤ 4096 ∧
    (State.reset.setI 4064).i.toNat + 32 ≤ 4096 := by decide

/-- Idle; a release recorded; waiting with none recorded. -/
theorem witness_KeyWaitBeginsResolvesOrWaits :
    State.reset.waiting = false ∧
    ((waiting.setKeyWait true 0x0220 (some 15)).waiting = true ∧ (waiting.setKeyWait true 0x0220 (some 15)).lastKey = some 15 ∧
      (waiting.setKeyWait true 0x0220 (some 15)).ignore.getLsbD (15 : Key).val = false) ∧
    (waiting.waiting = true ∧ ∀ k : Key, waiting.lastKey = some k → waiting.ignore.getLsbD k.val = true) :=
  ⟨rfl, by decide, rfl, nofun⟩

theorem witness_BcdStoresTheDigits :
    (State.reset.setI 4093).i.toNat + 3 ≤ 4096 ∧ 4096 < (State.reset.setI 4094).i.toNat + 3 := by decide

theorem witness_RegisterDumpStores :
    (State.reset.setI 4080).i.toNat + ((15 : Reg).val + 1) ≤ 4096 ∧ (15 : Reg) ≤ 15 ∧
    4096 < (State.reset.setI 4081).i.toNat + ((15 : Reg).val + 1) := by decide

theorem witness_RegisterLoadReads :
    (State.reset.setI 4080).i.toNat + ((14 : Reg).val + 1) ≤ 4096 ∧ (14 : Reg) ≤ 14 ∧ (14 : Reg) < 15 ∧
    4096 < (State.reset.setI 4081).i.toNat + ((15 : Reg).val + 1) := by decide

/-- The registers may change between the dump and the load. -/
theorem witness_DumpThenLoadRestoresTheRegisters :
    ∃ t u : State, (State.reset.setI 0x400).quirks.regSaveLoad = .unchanged ∧ (State.reset.setI 0x400).i.toNat + 16 ≤ 4096 ∧
      exec (.ldMemVx 15) (State.reset.setI 0x400) = .next t ∧ u.i = t.i ∧
      (∀ a, t.i.toNat ≤ a → a < t.i.toNat + 16 → u.readByte a = t.readByte a) ∧ u.getV 3 ≠ t.getV 3 :=
  ⟨_, (State.setMem (State.reset.setI 0x400) (State.reset.mem.writeList fontLoDefault 0x400 (State.reset.firstRegs 16))).setV 3 9,
    rfl, by decide, rfl, by decide, fun _ _ _ => rfl, by decide⟩

/-- The last address at which each run fits, and bytes that meet the two premises. -/
theorem witness_StoresAreSeenByTheNextFetch :
    (State.reset.setI 4093).i.toNat + 3 ≤ 4096 ∧
    ([1, 5, 7] : List Byte).map BitVec.toNat = [((withRegs State.reset [(0, 157)]).getV 0).toNat / 100,
      ((withRegs State.reset [(0, 157)]).getV 0).toNat / 10 % 10, ((withRegs State.reset [(0, 157)]).getV 0).toNat % 10] ∧
    (State.reset.setI 4095).i.toNat + ((0 : Reg).val + 1) ≤ 4096 ∧
    ([9] : List Byte) = ((List.finRange 16).take ((0 : Reg).val + 1)).map (withRegs State.reset [(0, 9)]).getV := by decide

theorem witness_QualifyingReleaseEndsTheWait :
    waiting.fault = none ∧ waiting.waiting = true ∧ inMemory waiting.pc.toNat 2 ∧ decodeWord waiting.fetchWord = some (.ldVxK 2) ∧
    waiting.lastKey = none ∧ waiting.ignore.getLsbD (7 : Key).val = false ∧
    (waiting.setPending [.keyRelease 7, .step 0xFFFF 0]).pending = [.keyRelease 7, .step 0xFFFF 0] := by decide

/-- Every kind of event the statement allows, and an event left over. -/
theorem witness_IgnoredKeysNeverEndTheWait :
    waiting.fault = none ∧ waiting.waiting = true ∧ inMemory waiting.pc.toNat 2 ∧ decodeWord waiting.fetchWord = some (.ldVxK 2) ∧
    waiting.lastKey = none ∧
    (waiting.setPending ([.tick, .step 0 0, .keyRelease 5] ++ [.por])).pending = [.tick, .step 0 0, .keyRelease 5] ++ [.por] ∧
    waiting.ignore.getLsbD (5 : Key).val = true := by decide

end Sys2Proof.Tests
end

/-! SUPPORT. Proofs about the state as a whole: the frame of every instruction, what no instruction reads, the invariant of
the machine, power-on reset and the quirk port. -/

namespace Sys2Proof

/-! ## The words decoded as `FX0A` are those its row of the opcode map matches (R75, R78) -/

/-- `FX0A` is decoded only from the nibbles `F`, `X`, `0`, `A`: of the classes with a decoder of their own (0, 8, E, F) only
the last gives it, and a class that looks at `N` alone (5, 9, D) does not. -/
theorem nibbles_of_decodeNibbles_ldVxK {c x y n : Nibble} {r : Reg} (h : decodeNibbles c x y n = some (.ldVxK r)) :
    c = 0xF ∧ y = 0x0 ∧ n = 0xA := by
  unfold decodeNibbles at h
  split at h
  case h_1 => unfold decodeClass0 at h; split at h <;> cases h
  case h_9 => unfold decodeClass8 at h; split at h <;> cases h
  case h_15 => unfold decodeClassE at h; split at h <;> cases h
  case h_16 =>
    have hc : c = 0xF := by
      clear h
      simp only [imp_false] at *
      bv_omega
    unfold decodeClassF at h
    split at h <;> cases h
    exact ⟨hc, rfl, rfl⟩
  case h_6 | h_10 | h_14 => split at h <;> cases h
  all_goals cases h

theorem and_nibbleOnes (b : Nibble) : b &&& 15#4 = b := BitVec.and_allOnes

/-- A word is decoded as an `FX0A` iff it matches the row of `FX0A`. -/
theorem decodeWord_isKeyWait_iff (w : Word) : (∃ r, decodeWord w = some (.ldVxK r)) ↔ w &&& 0xF0FF = 0xF00A := by
  have hmask : w &&& 0xF0FF = packWord (fieldClass w) 0x0 (fieldY w) (fieldN w) := by
    conv_lhs => rw [← packWord_fields w]
    refine (packWord_and _ _ _ _ 0xF 0x0 0xF 0xF).trans ?_
    simp [and_nibbleOnes]
  have hrow : w &&& 0xF0FF = 0xF00A ↔ fieldClass w = 0xF ∧ fieldY w = 0x0 ∧ fieldN w = 0xA := by
    rw [hmask]
    refine (packWord_inj _ _ _ _ 0xF 0x0 0x0 0xA).trans ?_
    simp
  rw [hrow, decodeWord]
  constructor
  · rintro ⟨r, hr⟩
    exact nibbles_of_decodeNibbles_ldVxK hr
  · rintro ⟨hc, hy, hn⟩
    rw [hc, hy, hn]
    exact ⟨_, rfl⟩

end Sys2Proof

namespace Sys2Proof.Machine

/-! ## What the branching instructions do -/

/-- `00EE` on an empty stack and on another (R92). -/
theorem exec_ret_empty {s : State} (h : s.stack = []) : exec .ret s = .next (s.raise .stackUnderflow 0) := by
  simp only [exec, execRet, h]

theorem exec_ret_pops {s : State} {a : Word} {rest : List Word} (h : s.stack = a :: rest) :
    exec .ret s = .next ((s.setStack rest).setPc a) := by
  simp only [exec, execRet, h]

section
variable {s : State} {x : Reg}

/-! The three ways of `FX0A` (R137): begin the wait, resolve it, go on waiting. -/

theorem exec_ldVxK_idle (hw : s.waiting = false) :
    exec (.ldVxK x) s = .next (s.setKeyWait true s.inKeys none).rewind := by
  simp only [exec, execLdVxK, hw, Bool.false_eq_true, if_false]

theorem exec_ldVxK_resolves {k : Key} (hw : s.waiting = true) (hk : s.resolvedKey = some k) :
    exec (.ldVxK x) s = .next ((s.setV x (BitVec.ofNat 8 k.val)).setKeyWait false 0 none) := by
  simp only [exec, execLdVxK, hw, if_true, hk]

theorem exec_ldVxK_waits (hw : s.waiting = true) (hk : s.resolvedKey = none) :
    exec (.ldVxK x) s = .next s.rewind := by
  simp only [exec, execLdVxK, hw, if_true, hk]

end

/-- Inversion of an `FX0A`. -/
theorem execLdVxK_cases {s t : State} {x : Reg} (h : exec (.ldVxK x) s = .next t) :
    (s.waiting = false ∧ t = (s.setKeyWait true s.inKeys none).rewind) ∨
      (∃ k, s.waiting = true ∧ s.resolvedKey = some k ∧
        t = (s.setV x (BitVec.ofNat 8 k.val)).setKeyWait false 0 none) ∨
      (s.waiting = true ∧ s.resolvedKey = none ∧ t = s.rewind) := by
  cases hw : s.waiting with
  | false =>
    rw [exec_ldVxK_idle hw] at h
    cases h
    exact .inl ⟨rfl, rfl⟩
  | true =>
    cases hk : s.resolvedKey with
    | some k =>
      rw [exec_ldVxK_resolves hw hk] at h
      cases h
      exact .inr (.inl ⟨k, rfl, rfl, rfl⟩)
    | none =>
      rw [exec_ldVxK_waits hw hk] at h
      cases h
      exact .inr (.inr ⟨rfl, rfl, rfl⟩)

/-! ## The frame of every instruction -/

/-- What the clear of the class-8 prologue may write (R110). -/
def State.prologueParts (s : State) : List Part := if s.quirks.vfReset = .on then [.reg VF] else []

/-- The parts of the state an instruction may write, a fault it may raise included. -/
def State.writtenParts (s : State) : Instr → List Part
  | .scd _ | .cls | .scr | .scl => [.pixels]
  | .low | .high => [.hires, .pixels]
  | .exit | .jp _ | .jpOff _ | .seI _ _ | .sneI _ _ | .seR _ _ | .sneR _ _ | .skp _ | .sknp _ => [.pc]
  | .ret | .call _ => [.stack, .pc, .fault]
  | .ldI x _ | .addI x _ | .rnd x _ | .ldVxDt x => [.reg x]
  | .ldR x _ | .orR x _ | .andR x _ | .xorR x _ => s.prologueParts ++ [.reg x]
  | .addR x _ | .sub x _ | .shr x _ | .subn x _ | .shl x _ => s.prologueParts ++ [.reg x, .reg VF]
  | .ldIdx _ | .addIdx _ | .ldF _ | .ldHf _ => [.index]
  | .drw _ _ _ | .drw16 _ _ => [.pixels, .reg VF, .pc, .fault]
  | .ldVxK x => [.reg x, .keyWait, .pc]
  | .ldDtVx _ => [.delay]
  | .ldStVx _ => [.sound]
  | .ldB _ => [.bytes s.i.toNat 3, .pc, .fault]
  | .ldMemVx x => [.bytes s.i.toNat (x.val + 1), .index, .pc, .fault]
  | .ldVxMem x => ((List.finRange 16).filter (· ≤ x)).map .reg ++ [.index] ++ [.pc, .fault]

section
variable {l l' : List Part} {s t u : State}

/-- Frames in a row: what either lists may change. -/
theorem KeptExcept.append (h : KeptExcept l s t) (g : KeptExcept l' t u) : KeptExcept (l ++ l') s u :=
  (h.mono fun _ hp => List.mem_append_left l' hp).trans (g.mono fun _ hp => List.mem_append_right l hp)

theorem KeptExcept.ite {c : Prop} {_ : Decidable c} {a b : State} (h : KeptExcept l s a) (g : KeptExcept l' s b) :
    KeptExcept (l ++ l') s (if c then a else b) := by
  split
  · exact h.mono fun _ hp => List.mem_append_left l' hp
  · exact g.mono fun _ hp => List.mem_append_right l hp

end

section
variable (s : State)

theorem State.vfPrologue_kept : KeptExcept s.prologueParts s s.vfPrologue := by
  rw [State.vfPrologue_cases, State.prologueParts]
  split
  · exact KeptExcept.setV s VF 0
  · exact KeptExcept.rfl' s _

theorem State.raise_kept (c : Cause) (info : Word) : KeptExcept [.pc, .fault] s (s.raise c info) :=
  KeptExcept.latch s _ c info

/-- A load from memory changes no register but those the list reaches. -/
theorem State.loadFirstRegs_kept (bs : List Byte) (x : Reg) (h : bs.length = x.val + 1) :
    KeptExcept (((List.finRange 16).filter (· ≤ x)).map .reg) s (s.loadFirstRegs bs) := by
  constructor <;> simp
  intro y hy
  rw [State.loadFirstRegs_getV, List.getD_eq_default]
  have hlt : x.val < y.val := hy
  omega

theorem State.draw_kept (x y : Reg) (rows bpr : Nat) :
    KeptExcept [.pixels, .reg VF, .pc, .fault] s (s.draw x y rows bpr) :=
  ((KeptExcept.setFb s _).append (KeptExcept.setV _ VF _)).ite (s.raise_kept _ _)

end

/-- The frame of every instruction. -/
theorem exec_kept {i : Instr} {s t : State} (h : exec i s = .next t) : KeptExcept (s.writtenParts i) s t := by
  cases i
  case ret =>
    cases hs : s.stack with
    | nil =>
      rw [exec_ret_empty hs] at h
      cases h
      exact (s.raise_kept _ _).mono (by simp [State.writtenParts])
    | cons a rest =>
      rw [exec_ret_pops hs] at h
      cases h
      exact ((KeptExcept.setStack s rest).append (KeptExcept.setPc _ a)).mono (by simp [State.writtenParts])
  case ldVxK x =>
    rcases execLdVxK_cases h with ⟨-, rfl⟩ | ⟨k, -, -, rfl⟩ | ⟨-, -, rfl⟩
    · exact ((KeptExcept.setKeyWait s _ _ _).append (KeptExcept.setPc _ _)).mono (by simp [State.writtenParts])
    · exact ((KeptExcept.setV s _ _).append (KeptExcept.setKeyWait _ _ _ _)).mono (by simp [State.writtenParts])
    · exact (KeptExcept.setPc s _).mono (by simp [State.writtenParts])
  all_goals cases h
  case scd | cls | scr | scl => exact KeptExcept.setFb s _
  case low | high => exact KeptExcept.setMode s _
  case exit | jp | jpOff | seI | sneI | seR | sneR | skp | sknp => exact KeptExcept.setPc s _
  case call =>
    exact ((s.raise_kept _ _).ite ((KeptExcept.setStack s _).append (KeptExcept.setPc _ _))).mono
      (by simp [State.writtenParts])
  case ldI | addI | rnd | ldVxDt => exact KeptExcept.setV s _ _
  case ldR | orR | andR | xorR => exact s.vfPrologue_kept.append (KeptExcept.setV _ _ _)
  case addR | sub | shr | subn | shl =>
    exact s.vfPrologue_kept.append ((KeptExcept.setV _ _ _).append (KeptExcept.setV _ _ _))
  case ldIdx | addIdx | ldF | ldHf => exact KeptExcept.setI s _
  case drw | drw16 => exact s.draw_kept _ _ _ _
  case ldDtVx => exact KeptExcept.setDt s _
  case ldStVx => exact KeptExcept.setSt s _
  case ldB => exact (KeptExcept.writeBytes s _ 3 (bcdDigits _) rfl).ite (s.raise_kept _ _)
  case ldMemVx x =>
    exact ((KeptExcept.writeBytes s _ (x.val + 1) _ (s.firstRegs_length _ x.isLt)).append (KeptExcept.setI _ _)).ite
      (s.raise_kept _ _)
  case ldVxMem x =>
    have hload := s.loadFirstRegs_kept _ x (s.readBytes_length s.i.toNat (x.val + 1))
    exact (hload.append (KeptExcept.setI _ _)).ite (s.raise_kept _ _)

/-! ## Which instructions the frames name -/

/-- The spec's tables of writers, part by part: is the instruction named for the part (R20 to R23, R32, R59, R110). `pc` and
`FAULT` are anyone's. -/
def State.NamedWriter (s : State) (i : Instr) : Part → Prop
  | .reg r => i.namesAsDestination r ∨ r = VF ∧ (i.writesFlag ∨ i.isClass8 ∧ s.quirks.vfReset = .on)
  | .index => i.writesIndex
  | .stack => i.writesStack
  | .bytes _ _ => i.storesToMemory
  | .hires => i.writesMode
  | .pixels => i.writesFrame
  | .delay => ∃ x, i = .ldDtVx x
  | .sound => ∃ x, i = .ldStVx x
  | .keyWait => ∃ x, i = .ldVxK x
  | .quirks | .host => False
  | .pc | .fault => True

theorem State.mem_prologueParts (s : State) (p : Part) :
    p ∈ s.prologueParts ↔ s.quirks.vfReset = .on ∧ p = .reg VF := by
  unfold State.prologueParts
  split <;> simp_all

/-- Every part an instruction may write is one it is named for. -/
theorem State.namedWriter_of_mem (s : State) (i : Instr) : ∀ p ∈ s.writtenParts i, s.NamedWriter i p := by
  cases i
  case ldR | orR | andR | xorR | addR | sub | shr | subn | shl =>
    simp only [State.writtenParts, List.forall_mem_append, State.mem_prologueParts]
    refine ⟨?_, by simp [State.NamedWriter, Instr.namesAsDestination, Instr.writesFlag]⟩
    rintro p ⟨hq, rfl⟩
    exact .inr ⟨rfl, .inr ⟨trivial, hq⟩⟩
  case ldVxMem x =>
    simp only [State.writtenParts, List.forall_mem_append, List.forall_mem_map]
    refine ⟨⟨fun r hr => .inl ?_, by simp [State.NamedWriter, Instr.writesIndex]⟩, by simp [State.NamedWriter]⟩
    simpa [Instr.namesAsDestination] using hr
  all_goals
    simp [State.writtenParts, State.NamedWriter, Instr.namesAsDestination, Instr.writesFlag, Instr.writesIndex,
      Instr.writesStack, Instr.storesToMemory, Instr.writesMode, Instr.writesFrame, or_imp, forall_and]

/-- Settles O13: a part is written only where the instruction is named for it. -/
theorem stateIsWrittenOnlyByItsInstructions : Obligations.StateIsWrittenOnlyByItsInstructions := by
  intro i s t h
  have kept := exec_kept h
  have named := s.namedWriter_of_mem i
  exact ⟨fun hi a => kept.memory a fun ⟨_, _, hp, _⟩ => hi (named _ hp),
    fun hi => kept.stack fun hp => hi (named _ hp),
    fun hi => kept.hires fun hp => hi (named _ hp),
    fun hi => kept.pixels fun hp => hi (named _ hp),
    fun hi => kept.index fun hp => hi (named _ hp),
    fun hi => kept.delay fun hp => (named _ hp).elim hi,
    fun hi => kept.sound fun hp => (named _ hp).elim hi,
    fun hi => kept.keyWait fun hp => (named _ hp).elim hi,
    kept.quirks fun hp => named _ hp, kept.params, kept.host fun hp => named _ hp⟩

/-- Settles O14: a register among the written parts is written in one of the ways named. -/
theorem registersAreWrittenOnlyAsNamed : Obligations.RegistersAreWrittenOnlyAsNamed := by
  intro i s t r h hdest hflag
  refine (exec_kept h).regs r fun hp => ?_
  rcases s.namedWriter_of_mem i _ hp with hd | ⟨hr, hf⟩
  · exact hdest hd
  · obtain ⟨hno, hno8⟩ := hflag hr
    exact hf.elim hno hno8

/-! ## What instructions do not read: the reserved quirk field, and each input but where it is used -/

/-- The state with the reserved quirk field and the two inputs changed. -/
def State.mapUnread (s : State) (style : ScrollStyle → ScrollStyle) (keys : BitVec 16 → BitVec 16)
    (rnd : Byte → Byte) : State :=
  { s with
    quirks := { s.quirks with scrollStyle := style s.quirks.scrollStyle }
    inKeys := keys s.inKeys
    inRnd := rnd s.inRnd }

/-- States whose memory reads alike give the same runs of bytes. -/
theorem State.readBytes_congr {s t : State} (h : ∀ a, t.readByte a = s.readByte a) (a n : Nat) :
    t.readBytes a n = s.readBytes a n := by
  induction n generalizing a with
  | zero => rfl
  | succ n ih => rw [State.readBytes, State.readBytes, h, ih]

/-- States whose memory reads alike give the same sprites. -/
theorem State.spriteRows_congr {s t : State} (h : ∀ a, t.readByte a = s.readByte a) (a bpr rows : Nat) :
    t.spriteRows a bpr rows = s.spriteRows a bpr rows := by
  induction rows generalizing a with
  | zero => rfl
  | succ rows ih => rw [State.spriteRows, State.spriteRows, State.readBytes_congr h, ih]

section
variable (style : ScrollStyle → ScrollStyle) (keys : BitVec 16 → BitVec 16) (rnd : Byte → Byte)

section
variable (s : State)

theorem State.mapUnread_vfPrologue :
    (s.mapUnread style keys rnd).vfPrologue = s.vfPrologue.mapUnread style keys rnd := by
  have hq : (s.mapUnread style keys rnd).quirks.vfReset = s.quirks.vfReset := rfl
  rw [State.vfPrologue_cases, State.vfPrologue_cases, hq]
  split <;> rfl

theorem State.mapUnread_readBytes (a n : Nat) : (s.mapUnread style keys rnd).readBytes a n = s.readBytes a n :=
  State.readBytes_congr (s := s) (t := s.mapUnread style keys rnd) (fun _ => rfl) a n

theorem State.mapUnread_drawPoints (x y : Reg) (rows bpr : Nat) :
    (s.mapUnread style keys rnd).drawPoints x y rows bpr = s.drawPoints x y rows bpr :=
  congrArg (spritePoints s.quirks.screenWrap s.width s.height (s.originCol x) (s.originRow y) 0)
    (State.spriteRows_congr (s := s) (t := s.mapUnread style keys rnd) (fun _ => rfl) s.i.toNat bpr rows)

theorem State.mapUnread_draw (x y : Reg) (rows bpr : Nat) :
    (s.mapUnread style keys rnd).draw x y rows bpr = (s.draw x y rows bpr).mapUnread style keys rnd := by
  by_cases hm : inMemory s.i.toNat (rows * bpr)
  · rw [State.draw_inside (s.mapUnread style keys rnd) x y rows bpr hm, State.draw_inside s x y rows bpr hm,
      State.mapUnread_drawPoints]
    rfl
  · rw [State.draw_outside (s.mapUnread style keys rnd) x y rows bpr hm, State.draw_outside s x y rows bpr hm]
    rfl

end

variable {style keys rnd}

/-- An instruction that branches on what both states share, and does the same in each branch, does the same. -/
theorem exec_mapUnread_of_ite {i : Instr} {s a b : State} {c : Prop} {_ : Decidable c}
    (h : exec i s = .next (if c then a else b))
    (h' : exec i (s.mapUnread style keys rnd) =
      .next (if c then a.mapUnread style keys rnd else b.mapUnread style keys rnd)) :
    exec i (s.mapUnread style keys rnd) = mapNext (fun t => t.mapUnread style keys rnd) (exec i s) := by
  rw [h, h']
  split <;> rfl

/-- `FX0A` reads the held keys only in its first execution (R162). -/
theorem exec_ldVxK_mapUnread {s : State} (x : Reg) (h : s.waiting = true ∨ keys s.inKeys = s.inKeys) :
    exec (.ldVxK x) (s.mapUnread style keys rnd) = mapNext (fun t => t.mapUnread style keys rnd) (exec (.ldVxK x) s) := by
  cases hw : s.waiting with
  | false =>
    have hkeys : (s.mapUnread style keys rnd).inKeys = s.inKeys := h.resolve_left (by simp [hw])
    rw [exec_ldVxK_idle hw, exec_ldVxK_idle (s := s.mapUnread style keys rnd) hw, hkeys]
    rfl
  | true =>
    cases hk : s.resolvedKey with
    | some k =>
      rw [exec_ldVxK_resolves hw hk, exec_ldVxK_resolves (s := s.mapUnread style keys rnd) hw hk]
      rfl
    | none =>
      rw [exec_ldVxK_waits hw hk, exec_ldVxK_waits (s := s.mapUnread style keys rnd) hw hk]
      rfl

/-- An instruction does the same whatever the reserved quirk field is, and whatever those inputs are that it does not read
(R34, R162). -/
theorem exec_mapUnread (i : Instr) (s : State) (hrnd : (∃ x nn, i = .rnd x nn) → rnd s.inRnd = s.inRnd)
    (hskip : (∃ x, i = .skp x ∨ i = .sknp x) → keys s.inKeys = s.inKeys)
    (hwait : (∃ x, i = .ldVxK x) → s.waiting = true ∨ keys s.inKeys = s.inKeys) :
    exec i (s.mapUnread style keys rnd) = mapNext (fun t => t.mapUnread style keys rnd) (exec i s) := by
  cases i
  case rnd x nn =>
    have hin : (s.mapUnread style keys rnd).inRnd = s.inRnd := hrnd ⟨x, nn, rfl⟩
    simp only [exec, execRnd, hin]
    rfl
  case skp x =>
    have hin : (s.mapUnread style keys rnd).inKeys = s.inKeys := hskip ⟨x, .inl rfl⟩
    simp only [exec, execSkp, hin]
    rfl
  case sknp x =>
    have hin : (s.mapUnread style keys rnd).inKeys = s.inKeys := hskip ⟨x, .inr rfl⟩
    simp only [exec, execSknp, hin]
    rfl
  case ldVxK x => exact exec_ldVxK_mapUnread x (hwait ⟨x, rfl⟩)
  case ret =>
    cases hs : s.stack with
    | nil =>
      rw [exec_ret_empty hs, exec_ret_empty (s := s.mapUnread style keys rnd) hs]
      rfl
    | cons a rest =>
      rw [exec_ret_pops hs, exec_ret_pops (s := s.mapUnread style keys rnd) hs]
      rfl
  case ldR | orR | andR | xorR =>
    simp only [exec, execLdR, execOrR, execAndR, execXorR, State.mapUnread_vfPrologue]
    rfl
  case addR | sub | subn | shr | shl =>
    simp only [exec, execAddR, execSub, execSubn, execShr, execShl, State.mapUnread_vfPrologue]
    rfl
  case ldVxMem x =>
    refine exec_mapUnread_of_ite rfl ?_
    simp only [exec, execLdVxMem, State.mapUnread_readBytes]
    rfl
  case drw | drw16 =>
    simp only [exec, execDrw, execDrw16, State.mapUnread_draw]
    rfl
  case call | ldB | ldMemVx => exact exec_mapUnread_of_ite rfl rfl
  all_goals rfl

end

/-- Settles O17: the field alone is changed, which no instruction reads. -/
theorem scrollStyleHasNoEffect : Obligations.ScrollStyleHasNoEffect := by
  intro i s z
  exact exec_mapUnread (style := fun _ => z) (keys := id) (rnd := id) i s (fun _ => rfl) (fun _ => rfl)
    (fun _ => .inr rfl)

/-! ## What each update of the state keeps of the invariant -/

/-- The invariant reads no register, neither `I` nor a timer, nor the quirks, nor anything of the host's. -/
theorem State.Inv.of_unread {s : State} (h : s.Inv) (v : Vector Byte 16) (i : Word) (dt st : Byte) (quirks : Quirks)
    (pending : List Event) (inKeys : BitVec 16) (inRnd : Byte) (inCount : Nat) (tone : Bool) :
    State.Inv { s with
      v := v, i := i, dt := dt, st := st, quirks := quirks, pending := pending, inKeys := inKeys, inRnd := inRnd,
      inCount := inCount, tone := tone } :=
  { h with }

section
variable {s : State} (h : s.Inv)
include h

theorem State.Inv.setV (x : Reg) (b : Byte) : (s.setV x b).Inv := h.of_unread ..
theorem State.Inv.setI (a : Word) : (s.setI a).Inv := h.of_unread ..
theorem State.Inv.loadFirstRegs (bs : List Byte) : (s.loadFirstRegs bs).Inv := h.of_unread ..
theorem State.Inv.setDt (b : Byte) : (s.setDt b).Inv := h.of_unread ..
theorem State.Inv.setSt (b : Byte) : (s.setSt b).Inv := h.of_unread ..
theorem State.Inv.setQuirks (q : Quirks) : (s.setQuirks q).Inv := h.of_unread ..
theorem State.Inv.setPending (es : List Event) : (s.setPending es).Inv := h.of_unread ..
theorem State.Inv.setInputs (keys : BitVec 16) (rnd : Byte) : (s.setInputs keys rnd).Inv := h.of_unread ..
theorem State.Inv.drawInputs : s.drawInputs.Inv := h.of_unread ..
theorem State.Inv.setTone (b : Bool) : (s.setTone b).Inv := h.of_unread ..

theorem State.Inv.vfPrologue : s.vfPrologue.Inv := by
  rw [State.vfPrologue_cases]
  split
  · exact h.setV VF 0
  · exact h

theorem State.Inv.setFb {fb : Frame} (hfb : fb.wf s.width s.height) : (s.setFb fb).Inv := { h with frame := hfb }

theorem State.Inv.setMode (hires : Bool) : (s.setMode hires).Inv := { h with frame := Frame.wf_nil _ _ }

/-- The wait ends. -/
theorem State.Inv.endWait : (s.setKeyWait false 0 none).Inv :=
  { h with idle := fun _ => ⟨rfl, rfl⟩, waitingAt := nofun, lastKey := nofun }

/-- A wait begins at the `FX0A` at `pc`, whatever keys are ignored. -/
theorem State.Inv.beginWait (hat : s.keyWaitAtPc) (ignore : BitVec 16) : (s.setKeyWait true ignore none).Inv :=
  { h with idle := nofun, waitingAt := fun _ => hat, lastKey := nofun }

/-- A release that counts is recorded. -/
theorem State.Inv.recordRelease {k : Key} (hk : s.releaseCounts k = true) :
    (s.setKeyWait s.waiting s.ignore (some k)).Inv := by
  simp only [State.releaseCounts, Bool.and_eq_true, Bool.not_eq_true'] at hk
  obtain ⟨⟨hwait, hignore⟩, -⟩ := hk
  exact { h with
    idle := by simp [hwait]
    lastKey := fun l hl => Option.some.inj hl ▸ hignore }

end

/-! ## The body of a STEP -/

/-- A state in which the body of an instruction may begin: the invariant holds, no fault is latched, no wait is on, and `pc`
has just been advanced past a word of memory (R70). -/
structure State.BodyBegins (s : State) : Prop where
  inv : s.Inv
  running : s.fault = none
  idle : s.waiting = false
  pcLow : 2 ≤ s.pc.toNat
  pcHigh : s.pc.toNat ≤ 4096

theorem toNat_advanced {a : Word} (h : inMemory a.toNat 2) : (a + 2).toNat = a.toNat + 2 := by
  rw [inMemory_iff] at h
  bv_omega

/-- Outside a wait, the advance of `pc` leads to a state in which the body may begin. -/
theorem State.Inv.bodyBegins {s : State} (h : s.Inv) (hf : s.fault = none) (hw : s.waiting = false)
    (hm : inMemory s.pc.toNat 2) : (s.setPc (s.pc + 2)).BodyBegins := by
  have hpc := toNat_advanced hm
  rw [inMemory_iff] at hm
  exact {
    inv := { h with
      pcRange := by simp only [State.setPc_pc]; omega
      waitingAt := by simp [hw]
      faultAt := by simp [hf] }
    running := hf
    idle := hw
    pcLow := by simp only [State.setPc_pc]; omega
    pcHigh := by simp only [State.setPc_pc]; omega }

section
variable {s : State} (h : s.BodyBegins)
include h

theorem State.BodyBegins.setPc {a : Word} (ha : a.toNat ≤ 0x10FE) : (s.setPc a).Inv :=
  { h.inv with
    pcRange := ha
    waitingAt := by simp [h.idle]
    faultAt := by simp [h.running] }

theorem State.BodyBegins.setStack {l : List Word} (hl : ∀ a ∈ l, a.toNat ≤ 4096)
    (hd : ∀ d, s.params.stackDepth = some d → l.length ≤ d) : (s.setStack l).BodyBegins :=
  { h with inv := { h.inv with stackRange := hl, stackDepth := hd } }

theorem State.BodyBegins.writeBytes {a : Nat} (bs : List Byte) (ha : inMemory a bs.length) : (s.writeBytes a bs).Inv :=
  { h.inv with
    memory := Memory.wf_writeList h.inv.memory bs ha
    waitingAt := by simp [h.idle] }

theorem State.BodyBegins.raise (c : Cause) (info : Word) : (s.raise c info).Inv :=
  { h.inv with
    pcRange := by
      have := h.pcLow; have := h.pcHigh
      simp only [State.raise_eq, State.latch_pc]; bv_omega
    waitingAt := by simp [h.idle]
    faultAt := by rintro f hf; cases hf; rfl }

theorem State.BodyBegins.skipIf (c : Bool) : (s.skipIf c).Inv := by
  have := h.pcHigh
  refine h.setPc ?_
  split <;> bv_omega

theorem State.BodyBegins.rewind : s.rewind.Inv := by
  have := h.pcLow; have := h.pcHigh
  exact h.setPc (by bv_omega)

theorem State.BodyBegins.setResultAndFlag (x : Reg) (r f : Byte) : (s.vfPrologue.setResultAndFlag x r f).Inv :=
  (h.inv.vfPrologue.setV x r).setV VF f

theorem State.BodyBegins.draw (x y : Reg) (rows bpr : Nat) : (s.draw x y rows bpr).Inv := by
  by_cases hm : inMemory s.i.toNat (rows * bpr)
  · rw [State.draw_inside s x y rows bpr hm]
    exact (h.inv.setFb (Frame.wf_draw _ h.inv.frame (spritePoints_on_grid s.width_pos s.height_pos _ _))).setV _ _
  · rw [State.draw_outside s x y rows bpr hm]
    exact h.raise _ _

end

/-- The highest target of `BNNN` is `0xFF + 0xFFF` (R25). -/
theorem State.toNat_offsetTarget_le (s : State) (nnn : Addr12) : (s.offsetTarget nnn).toNat ≤ 0x10FE := by
  have hsum : ∀ (b : Byte) (a : Word), a.toNat ≤ 0xFFF → (extendByte b + a).toNat ≤ 0x10FE := by
    intro b a ha
    have := b.isLt
    rw [BitVec.toNat_add, toNat_extendByte]
    omega
  unfold State.offsetTarget
  split
  · exact hsum _ _ (by have := nnn.isLt; rw [toNat_extendNNN]; omega)
  · exact hsum _ _ (by have := (joinNN (midNNN nnn) (loNNN nnn)).isLt; rw [toNat_extendByte]; omega)

theorem toNat_extendNNN_le (nnn : Addr12) : (extendNNN nnn).toNat ≤ 0x10FE := by
  have := nnn.isLt
  rw [toNat_extendNNN]
  omega

/-- Every instruction but `FX0A` keeps the invariant. -/
theorem exec_keeps_inv {s t : State} {i : Instr} (h : s.BodyBegins) (hi : ∀ x, i ≠ .ldVxK x) (he : exec i s = .next t) :
    t.Inv := by
  cases i
  case ldVxK x => exact absurd rfl (hi x)
  case ret =>
    cases hs : s.stack with
    | nil =>
      rw [exec_ret_empty hs] at he
      cases he
      exact h.raise _ _
    | cons a rest =>
      rw [exec_ret_pops hs] at he
      cases he
      have hrange := h.inv.stackRange
      have hdepth := h.inv.stackDepth
      simp only [hs, List.mem_cons, forall_eq_or_imp, List.length_cons] at hrange hdepth
      obtain ⟨ha, hrest⟩ := hrange
      exact (h.setStack hrest fun d hd => by have := hdepth d hd; omega).setPc (by omega)
  all_goals cases he
  case scd n => exact h.inv.setFb (Frame.wf_scrollDown h.inv.frame n.toNat)
  case cls => exact h.inv.setFb (Frame.wf_nil _ _)
  case scr => exact h.inv.setFb (Frame.wf_scrollRight h.inv.frame)
  case scl => exact h.inv.setFb (Frame.wf_scrollLeft h.inv.frame)
  case low | high => exact h.inv.setMode _
  case exit => exact h.rewind
  case jp nnn => exact h.setPc (toNat_extendNNN_le nnn)
  case jpOff nnn => exact h.setPc (s.toNat_offsetTarget_le nnn)
  case call nnn =>
    split
    · exact h.raise _ _
    · next hroom =>
      rw [State.stackFull_iff] at hroom
      refine (h.setStack ?_ ?_).setPc (toNat_extendNNN_le nnn)
      · simpa only [List.mem_cons, forall_eq_or_imp] using ⟨h.pcHigh, h.inv.stackRange⟩
      · intro d hd
        by_contra hlt
        exact hroom ⟨d, hd, by simp only [List.length_cons] at hlt; omega⟩
  case seI | sneI | seR | sneR | skp | sknp => exact h.skipIf _
  case ldI | addI | rnd | ldVxDt => exact h.inv.setV _ _
  case ldR | orR | andR | xorR => exact h.inv.vfPrologue.setV _ _
  case addR | sub | shr | subn | shl => exact h.setResultAndFlag _ _ _
  case ldIdx | addIdx | ldF | ldHf => exact h.inv.setI _
  case drw | drw16 => exact h.draw _ _ _ _
  case ldDtVx => exact h.inv.setDt _
  case ldStVx => exact h.inv.setSt _
  case ldB x =>
    split
    · next hm => exact h.writeBytes _ hm
    · exact h.raise _ _
  case ldMemVx x =>
    split
    · next hm =>
      have hlen : (s.firstRegs (x.val + 1)).length = x.val + 1 := s.firstRegs_length _ x.isLt
      exact (h.writeBytes _ (by rwa [hlen])).setI _
    · exact h.raise _ _
  case ldVxMem x =>
    split
    · exact (h.inv.loadFirstRegs _).setI _
    · exact h.raise _ _

/-- Going back over the instruction just passed undoes the advance of `pc` (R24). -/
theorem State.setPc_advance_rewind (s : State) : (s.setPc (s.pc + 2)).rewind = s := by
  have hpc : s.pc + 2 - 2 = s.pc := by bv_omega
  simp only [State.rewind_eq, State.setPc, hpc]

/-- `FX0A` keeps the invariant: it leaves the wait, or stands at its own address again. -/
theorem execLdVxK_keeps_inv {s t : State} {x : Reg} (h : s.Inv) (hf : s.fault = none) (hm : inMemory s.pc.toNat 2)
    (hd : decodeWord s.fetchWord = some (.ldVxK x)) (he : exec (.ldVxK x) (s.setPc (s.pc + 2)) = .next t) : t.Inv := by
  have hat : s.keyWaitAtPc := ⟨hm, (decodeWord_isKeyWait_iff _).mp ⟨x, hd⟩⟩
  rcases execLdVxK_cases he with ⟨-, rfl⟩ | ⟨k, -, -, rfl⟩ | ⟨-, -, rfl⟩
  · exact (State.setPc_advance_rewind (s.setKeyWait true s.inKeys none)).symm ▸ h.beginWait hat s.inKeys
  · exact (h.endWait.bodyBegins hf rfl hm).inv.setV x (BitVec.ofNat 8 k.val)
  · exact s.setPc_advance_rewind.symm ▸ h

/-- A fault latched by the fetch leaves `pc` in place (R153). -/
theorem State.Inv.latchAtPc {s : State} (h : s.Inv) (c : Cause) (info : Word) : (s.latch s.pc c info).Inv :=
  { h with faultAt := by rintro f hf; cases hf; rfl }

/-- The body of a STEP keeps the invariant: while a wait is on, the instruction fetched is its `FX0A`. -/
theorem stepBody_keeps_inv {s t : State} (h : s.Inv) (hf : s.fault = none) (hb : stepBody s = .next t) : t.Inv := by
  rcases stepBody_next_cases hb with ⟨i, hm, hd, he⟩ | ⟨-, -, rfl⟩ | ⟨-, rfl⟩
  · by_cases hi : ∃ x, i = .ldVxK x
    · obtain ⟨x, rfl⟩ := hi
      exact execLdVxK_keeps_inv h hf hm hd he
    · have hidle : s.waiting = false := by
        by_contra hw
        obtain ⟨-, hword⟩ := h.waitingAt (by simpa using hw)
        obtain ⟨x, hx⟩ := (decodeWord_isKeyWait_iff _).mpr hword
        exact hi ⟨x, Option.some.inj (hd.symm.trans hx)⟩
      exact exec_keeps_inv (h.bodyBegins hf hidle hm) (fun x hx => hi ⟨x, hx⟩) he
  · exact h.latchAtPc _ _
  · exact h.latchAtPc _ _

/-! ## The other events -/

/-- The reset state meets the invariant, whatever the parameters. -/
theorem State.resetWith_inv (p : Params) : (State.resetWith p).Inv where
  memory := Memory.wf_nil
  frame := Frame.wf_nil _ _
  pcRange := show (0x200 : Word).toNat ≤ 0x10FE by decide
  stackRange := nofun
  stackDepth d _ := d.zero_le
  idle _ := ⟨rfl, rfl⟩
  waitingAt := nofun
  lastKey := nofun
  faultAt := nofun

theorem State.por_inv (s : State) : s.por.Inv := (State.resetWith_inv s.params).of_unread ..

theorem State.Inv.loadProgram {s : State} (h : s.Inv) {bytes : List Byte} (hlen : bytes.length ≤ Config.progMax) :
    (s.loadProgram bytes).Inv :=
  { s.por_inv with
    memory := Memory.wf_writeList Memory.wf_nil bytes (Nat.add_le_add_left hlen Config.progBase)
    frame := h.frame
    waitingAt := nofun }

theorem State.Inv.tickTimers {s : State} (h : s.Inv) : s.tickTimers.Inv := by
  unfold State.tickTimers
  split
  · exact h
  · exact (h.setDt _).setSt _

/-- Every event but a STEP keeps the invariant. -/
theorem serve_keeps_inv {e : Event} {s t : State} (h : s.Inv) (he : e.isStep = false) (hs : serve e s = .next t) :
    t.Inv := by
  cases e with
  | por => cases hs; exact s.por_inv
  | load bytes =>
    simp only [serve, loadEvent] at hs
    split at hs <;> cases hs
    next hlen => exact h.loadProgram hlen
  | setQuirks bits =>
    simp only [serve, setQuirksEvent] at hs
    split at hs
    · cases hs; exact h
    · split at hs <;> cases hs
      exact h.setQuirks _
  | keyRelease k =>
    cases hs
    split
    · next hk =>
      rw [Bool.and_eq_true] at hk
      obtain ⟨-, hcounts⟩ := hk
      exact h.recordRelease hcounts
    · exact h
  | tick => cases hs; exact h.tickTimers.setTone _
  | step keys rnd => cases he

theorem StepIsNext.inv {s u : State} (hu : StepIsNext s u) (h : s.Inv) : u.Inv := by
  rcases hu with ⟨-, rfl⟩ | ⟨keys, rnd, es, -, rfl⟩
  · exact h
  · exact (h.setPending es).setInputs keys rnd

/-- Settles O18: a STEP by the body it runs, every other event by itself. -/
theorem stepKeepsTheInvariant : Obligations.StepKeepsTheInvariant := by
  intro s t h hstep
  rcases step_next_cases hstep with ⟨u, v, hu, hf, hb, rfl⟩ | ⟨e, es, -, he, hs⟩
  · exact (stepBody_keeps_inv (hu.inv h) (hu.fault_eq.trans hf) hb).drawInputs
  · exact serve_keeps_inv (h.setPending es) he hs

/-- Settles O19, as the reset state of the default parameters. -/
theorem resetMeetsTheInvariant : Obligations.ResetMeetsTheInvariant := State.resetWith_inv Params.default

/-! ## Power-on reset -/

/-- Memory with nothing listed is the reset image of the empty program (R51, R53). -/
theorem State.holdsImage_nil {s : State} (hm : s.mem = []) : s.HoldsImage [] := by
  have hread : ∀ a, s.readByte a = resetByte s.params.fontLo a := fun a => by rw [State.readByte, hm, Memory.read]
  exact {
    fontLo := fun k => (hread _).trans (resetByte_fontLo k.val k.isLt)
    fontHi := fun k hk => (hread _).trans (resetByte_fontHi k hk)
    program := nofun
    zero := fun a hfont _ => (hread a).trans (resetByte_zero a hfont) }

/-- After reset everything is at its reset value, whatever the parameters (R40). -/
theorem State.resetWith_poweredOn (p : Params) : (State.resetWith p).PoweredOn where
  regs x := by simp [State.resetWith, State.getV]
  index := rfl
  pc := rfl
  stack := rfl
  delay := rfl
  sound := rfl
  idle := ⟨rfl, rfl, rfl⟩
  noFault := rfl
  image := State.holdsImage_nil rfl
  lowRes := rfl
  blank := Frame.lit_nil
  quirks := rfl

/-- POR resets all of CORE (R180); what it keeps is the host's. -/
theorem State.por_poweredOn (s : State) : s.por.PoweredOn :=
  { State.resetWith_poweredOn s.params with image := State.holdsImage_nil rfl }

/-- Settles O20: the reset state for any parameters, and POR, which leads to one. -/
theorem powerOnResetsEverything : Obligations.PowerOnResetsEverything := by
  refine ⟨fun p => ⟨State.resetWith_poweredOn p, rfl⟩, rfl, rfl, rfl, rfl, fun s es hp => ?_⟩
  exact ⟨(s.setPending es).por, step_of_pending hp, State.por_poweredOn _, rfl, rfl⟩

/-! ## The bits of the quirk port -/

/-- The bit at its place carries the field; every other bit is 0. -/
theorem getLsbD_portBit (c : Bool) {place : Nat} (hp : place < 8) (j : Nat) :
    (portBit c place).getLsbD j = (c && decide (place = j)) := by
  cases c with
  | false => simp [portBit]
  | true =>
    have hj : place = j → j < 8 := fun e => e ▸ hp
    simpa only [portBit, if_true, BitVec.getLsbD_ofNat, Nat.testBit_two_pow, Bool.true_and, Bool.and_eq_right_iff_imp,
      decide_eq_true_eq] using hj

/-- Each bit of the port, by the field it carries (R34, D28). -/
theorem Quirks.toBits_bits (q : Quirks) :
    q.toBits.getLsbD 0 = decide (q.vfReset = .on) ∧
    q.toBits.getLsbD 1 = decide (q.shifting = .operandY) ∧
    q.toBits.getLsbD 2 = decide (q.regSaveLoad = .advanceByCount) ∧
    q.toBits.getLsbD 3 = decide (q.regSaveLoad = .advanceByCountPlusOne) ∧
    q.toBits.getLsbD 4 = decide (q.jump = .offsetByX) ∧
    q.toBits.getLsbD 5 = decide (q.screenWrap = .on) ∧
    q.toBits.getLsbD 6 = decide (q.scrollStyle = .legacy) ∧
    q.toBits.getLsbD 7 = false := by
  simp only [Quirks.toBits, BitVec.getLsbD_or, getLsbD_portBit, Nat.reduceLT, beq_eq_decide]
  simp

/-- Bits 3 and 2 as the number of the field they carry. -/
theorem toNat_bits_3_2 (b : Byte) : b.toNat / 4 % 4 = 2 * (b.getLsbD 3).toNat + (b.getLsbD 2).toNat := by
  simp only [BitVec.getLsbD, Nat.toNat_testBit]
  omega

theorem Switch.of_on (v : Switch) : (if v = .on then .on else .off) = v := by cases v <;> rfl
theorem Shifting.of_operandY (v : Shifting) : (if v = .operandY then .operandY else .operandX) = v := by cases v <;> rfl
theorem JumpQuirk.of_offsetByX (v : JumpQuirk) : (if v = .offsetByX then .offsetByX else .classic) = v := by
  cases v <;> rfl
theorem ScrollStyle.of_legacy (v : ScrollStyle) : (if v = .legacy then .legacy else .modern) = v := by cases v <;> rfl

/-- Reading the bits of a bundle back gives the bundle. -/
theorem Quirks.ofBits_toBits (q : Quirks) : Quirks.ofBits q.toBits = some q := by
  obtain ⟨h0, h1, h2, h3, h4, h5, h6, h7⟩ := q.toBits_bits
  simp only [Quirks.ofBits, h0, h1, h2, h3, h4, h5, h6, h7, decide_eq_true_eq, Switch.of_on, Shifting.of_operandY,
    JumpQuirk.of_offsetByX, ScrollStyle.of_legacy]
  obtain ⟨vfReset, shifting, regSaveLoad, jump, screenWrap, scrollStyle⟩ := q
  cases regSaveLoad <;> rfl

/-- Settles O27, from the bits one by one. -/
theorem quirkPortLayout : Obligations.QuirkPortLayout := by
  intro q
  obtain ⟨h0, h1, h2, h3, h4, h5, h6, h7⟩ := q.toBits_bits
  refine ⟨q.ofBits_toBits, h0, h1, ?_, h4, h5, h6, h7⟩
  rw [toNat_bits_3_2, h2, h3]
  cases q.regSaveLoad <;> rfl

end Sys2Proof.Machine

/-! SUPPORT. Proofs about memory: what a run of bytes stored from `I` on makes every address read as, and the word fetched
right after it. -/

namespace Sys2Proof.Machine

/-! ## A run stored from `I` on (R59) -/

section
variable (s : State) (bs : List Byte)

/-- Once a run is stored from `I` on, every address reads as the run laid over the memory before. -/
theorem State.writeBytes_readByte_eq_overlaid (a : Nat) :
    (s.writeBytes s.i.toNat bs).readByte a = s.overlaid bs a := by
  rw [State.overlaid]
  split
  · next hin =>
    have hk : a - s.i.toNat < bs.length := by omega
    rw [State.writeBytes_eq, State.writeBytes_readByte, if_pos hin.1, List.getD_eq_getElem _ _ hk,
      List.getD_eq_getElem _ _ hk]
  · next hout => exact Memory.read_writeList_outside _ _ _ _ hout

/-- The word fetched once a run is stored from `I` on. -/
theorem State.writeBytes_fetchWord :
    (s.writeBytes s.i.toNat bs).fetchWord =
      wordOfBytes (s.overlaid bs s.pc.toNat) (s.overlaid bs (s.pc.toNat + 1)) :=
  congrArg₂ wordOfBytes (s.writeBytes_readByte_eq_overlaid bs _) (s.writeBytes_readByte_eq_overlaid bs _)

/-- Where `I` points is no matter to what is fetched. -/
@[simp] theorem State.setI_fetchWord (a : Word) : (s.setI a).fetchWord = s.fetchWord := rfl

end

/-! ## The two instructions that store, where their run lies in memory (R143, R144) -/

/-- The digits of a byte, as numbers (R143). -/
theorem bcdDigits_toNat (b : Byte) :
    (bcdDigits b).map BitVec.toNat = [b.toNat / 100, b.toNat / 10 % 10, b.toNat % 10] := by
  have hb := b.isLt
  have hundreds : b.toNat / 100 < 256 := by omega
  have tens : b.toNat / 10 % 10 < 256 := by omega
  have units : b.toNat % 10 < 256 := by omega
  simp [bcdDigits, Nat.mod_eq_of_lt, hundreds, tens, units]

/-- Bytes whose numbers are the digits of `b` are the digits of `b`. -/
theorem eq_bcdDigits_of_toNat {b : Byte} {bs : List Byte}
    (h : bs.map BitVec.toNat = [b.toNat / 100, b.toNat / 10 % 10, b.toNat % 10]) : bs = bcdDigits b :=
  BitVec.toNat_injective.list_map (h.trans (bcdDigits_toNat b).symm)

/-- The first `n` registers, read one by one. -/
theorem State.firstRegs_eq_map_getV (s : State) (n : Nat) : s.firstRegs n = ((List.finRange 16).take n).map s.getV := by
  have hv : s.v.toList = (List.finRange 16).map s.getV := by
    apply List.ext_getElem <;> simp [State.getV]
  rw [State.firstRegs, hv, List.map_take]

theorem exec_ldB_of_inMemory {s : State} (x : Reg) (h : inMemory s.i.toNat 3) :
    exec (.ldB x) s = .next (s.writeBytes s.i.toNat (bcdDigits (s.getV x))) := by
  simp only [exec, execLdB, h, if_true]

theorem exec_ldMemVx_of_inMemory {s : State} (x : Reg) (h : inMemory s.i.toNat (x.val + 1)) :
    exec (.ldMemVx x) s = .next ((s.writeBytes s.i.toNat (s.firstRegs (x.val + 1))).setI (s.advancedI x)) := by
  simp only [exec, execLdMemVx, h, if_true]

/-- Settles O57: each of the two instructions stores its run from `I` on, and the fetch reads the run laid over memory. -/
theorem storesAreSeenByTheNextFetch : Obligations.StoresAreSeenByTheNextFetch := by
  intro x s
  constructor
  · intro hfits
    refine ⟨_, exec_ldB_of_inMemory x hfits, rfl, fun stored hstored => ?_⟩
    rw [eq_bcdDigits_of_toNat hstored]
    exact s.writeBytes_fetchWord _
  · intro hfits
    refine ⟨_, exec_ldMemVx_of_inMemory x hfits, rfl, fun stored hstored => ?_⟩
    rw [hstored, ← s.firstRegs_eq_map_getV, State.setI_fetchWord]
    exact s.writeBytes_fetchWord _

end Sys2Proof.Machine

/-! SUPPORT. Proofs about encoding and decoding, and about the STEP that runs the decoded word: decoder and encoder undo each
other, the decoder follows the opcode map, and what a STEP does with the word at `pc`. -/

namespace Sys2Proof

/-! ## The decoder undoes the encoder (R72, R73, R78) -/

/-- The word of a well-formed instruction decodes to it: what the encoder packs is what the decoder reads, and the immediates
it splits are joined again. -/
theorem decodeWord_encodeWord {i : Instr} (h : i.wellFormed = true) : decodeWord (encodeWord i) = some i := by
  cases i
  case cls | ret | scr | scl | exit | low | high => rfl
  case jp | call | ldIdx | jpOff => simp [encodeWord, packNNN, decodeWord_packWord, decodeNibbles]
  case seI | sneI | ldI | addI | rnd => simp [encodeWord, packXNN, decodeWord_packWord, decodeNibbles]
  case drw x y n =>
    have hn : n ≠ 0 := by simpa [Instr.wellFormed] using h
    exact (decodeWord_packWord ..).trans (if_neg hn)
  all_goals exact decodeWord_packWord ..

/-- Two bytes decode to an instruction iff the word they form does (R57, R71). -/
theorem decode_pair_eq_instr_iff {a b : Byte} {i : Instr} :
    decode [a, b] = .instr i ↔ decodeWord (wordOfBytes a b) = some i := by
  cases h : decodeWord (wordOfBytes a b) <;> simp [decode, h]

/-- Settles O1: the two bytes form the instruction's word again, which decodes to it. -/
theorem decodeOfEncodeIsTheInstruction : Obligations.DecodeOfEncodeIsTheInstruction := by
  intro i h
  rw [encode, decode_pair_eq_instr_iff, wordOfBytes_split]
  exact decodeWord_encodeWord h

/-- Settles O4, word by word. -/
theorem sampleWordsDecode : Obligations.SampleWordsDecode := by
  unfold Obligations.SampleWordsDecode
  decide

/-! ## The encoder undoes the decoder (R82) -/

section
variable {i : Instr}

theorem encodeWord_of_decodeClass0 {x y n : Nibble} (h : decodeClass0 x y n = some i) :
    i.wellFormed = true ∧ encodeWord i = packWord 0x0 x y n := by
  unfold decodeClass0 at h
  split at h <;> cases h <;> exact ⟨rfl, rfl⟩

theorem encodeWord_of_decodeClass8 {x y : Reg} {n : Nibble} (h : decodeClass8 x y n = some i) :
    i.wellFormed = true ∧ encodeWord i = packXYN 0x8 x y n := by
  unfold decodeClass8 at h
  split at h <;> cases h <;> exact ⟨rfl, rfl⟩

theorem encodeWord_of_decodeClassE {x : Reg} {y n : Nibble} (h : decodeClassE x y n = some i) :
    i.wellFormed = true ∧ encodeWord i = packX 0xE x y n := by
  unfold decodeClassE at h
  split at h <;> cases h <;> exact ⟨rfl, rfl⟩

theorem encodeWord_of_decodeClassF {x : Reg} {y n : Nibble} (h : decodeClassF x y n = some i) :
    i.wellFormed = true ∧ encodeWord i = packX 0xF x y n := by
  unfold decodeClassF at h
  split at h <;> cases h <;> exact ⟨rfl, rfl⟩

/-- The instruction four nibbles stand for is well-formed, and its word is their packing. -/
theorem encodeWord_of_decodeNibbles {c x y n : Nibble} (h : decodeNibbles c x y n = some i) :
    i.wellFormed = true ∧ encodeWord i = packWord c x y n := by
  unfold decodeNibbles at h
  split at h
  case h_1 => exact encodeWord_of_decodeClass0 h
  case h_9 => exact encodeWord_of_decodeClass8 h
  case h_15 => exact encodeWord_of_decodeClassE h
  case h_16 =>
    have hc : c = 0xF := by
      clear h
      simp only [imp_false] at *
      bv_omega
    subst hc
    exact encodeWord_of_decodeClassF h
  case h_6 | h_10 =>
    split at h
    · next hn => cases h; subst hn; exact ⟨rfl, rfl⟩
    · cases h
  case h_14 =>
    split at h
    · next hn => cases h; subst hn; exact ⟨rfl, rfl⟩
    · next hn => cases h; exact ⟨by simpa [Instr.wellFormed] using hn, rfl⟩
  case h_2 | h_3 | h_11 | h_12 => cases h; exact ⟨rfl, by simp [encodeWord, packNNN]⟩
  case h_4 | h_5 | h_7 | h_8 | h_13 => cases h; exact ⟨rfl, by simp [encodeWord, packXNN]⟩

end

/-- Settles O2: every word is the packing of its four nibbles. -/
theorem decodingDropsNoBit : Obligations.DecodingDropsNoBit := by
  intro w i h
  obtain ⟨hwf, hword⟩ := encodeWord_of_decodeNibbles h
  exact ⟨hwf, hword.trans (packWord_fields w)⟩

/-! ## The decoder follows the opcode map (R75, R76, R78) -/

section
open Laws.TableRow

/-- The encoder's word matches the instruction's row, constructor by constructor. -/
theorem encodeWord_matches_row (i : Instr) : encodeWord i &&& i.row.mask = i.row.bits := by
  cases i
  exacts [scd _, cls, ret, scr, scl, exit, low, high, jp _, call _, seI _ _, sneI _ _, seR _ _, sneR _ _, ldI _ _,
    addI _ _, ldR _ _, orR _ _, andR _ _, xorR _ _, addR _ _, sub _ _, shr _ _, subn _ _, shl _ _, ldIdx _, jpOff _,
    rnd _ _, drw _ _ _, drw16 _ _, skp _, sknp _, ldVxDt _, ldVxK _, ldDtVx _, ldStVx _, addIdx _, ldF _, ldHf _, ldB _,
    ldMemVx _, ldVxMem _]

end

section
variable {w b : Word}

/-- The bits a mask keeps are those of the match. -/
theorem extractLsb'_of_masked {m : Word} {start len : Nat} (hm : m.extractLsb' start len = BitVec.allOnes len)
    (h : w &&& m = b) : w.extractLsb' start len = b.extractLsb' start len := by
  rw [← h, BitVec.extractLsb'_and, hm, BitVec.and_allOnes]

/-! A word that matches under a mask of the map decodes by the fields of the match where the mask has ones, and by its own
where it has zeros. -/

theorem decodeWord_of_F000 (h : w &&& 0xF000 = b) :
    decodeWord w = decodeNibbles (fieldClass b) (fieldX w) (fieldY w) (fieldN w) := by
  have hc : fieldClass w = fieldClass b := extractLsb'_of_masked (by decide) h
  rw [decodeWord, hc]

theorem decodeWord_of_F00F (h : w &&& 0xF00F = b) :
    decodeWord w = decodeNibbles (fieldClass b) (fieldX w) (fieldY w) (fieldN b) := by
  have hc : fieldClass w = fieldClass b := extractLsb'_of_masked (by decide) h
  have hn : fieldN w = fieldN b := extractLsb'_of_masked (by decide) h
  rw [decodeWord, hc, hn]

theorem decodeWord_of_F0FF (h : w &&& 0xF0FF = b) :
    decodeWord w = decodeNibbles (fieldClass b) (fieldX w) (fieldY b) (fieldN b) := by
  have hc : fieldClass w = fieldClass b := extractLsb'_of_masked (by decide) h
  have hy : fieldY w = fieldY b := extractLsb'_of_masked (by decide) h
  have hn : fieldN w = fieldN b := extractLsb'_of_masked (by decide) h
  rw [decodeWord, hc, hy, hn]

theorem decodeWord_of_FFF0 (h : w &&& 0xFFF0 = b) :
    decodeWord w = decodeNibbles (fieldClass b) (fieldX b) (fieldY b) (fieldN w) := by
  have hc : fieldClass w = fieldClass b := extractLsb'_of_masked (by decide) h
  have hx : fieldX w = fieldX b := extractLsb'_of_masked (by decide) h
  have hy : fieldY w = fieldY b := extractLsb'_of_masked (by decide) h
  rw [decodeWord, hc, hx, hy]

theorem decodeWord_of_FFFF (h : w &&& 0xFFFF = b) : decodeWord w = decodeWord b :=
  congrArg decodeWord (BitVec.and_allOnes.symm.trans h)

end

/-- A word that matches a row decodes to an instruction of that row, but that `DXY0` wins over `DXYN` (R76). -/
theorem decodes_of_matches_row {w : Word} {j : Instr} (h : w &&& j.row.mask = j.row.bits) :
    ∃ i, decodeWord w = some i ∧ (i.row = j.row ∨ i.row = ⟨0xF00F, 0xD000⟩ ∧ j.row = ⟨0xF000, 0xD000⟩) := by
  cases j <;> simp only [Instr.row] at h
  case cls | ret | scr | scl | exit | low | high => exact ⟨_, decodeWord_of_FFFF h, .inl rfl⟩
  case scd =>
    have hd := decodeWord_of_FFF0 h
    simp only [fieldClass, fieldX, fieldY, BitVec.reduceExtractLsb'] at hd
    exact ⟨_, hd, .inl rfl⟩
  case jp | call | seI | sneI | ldI | addI | ldIdx | jpOff | rnd =>
    have hd := decodeWord_of_F000 h
    simp only [fieldClass, BitVec.reduceExtractLsb'] at hd
    exact ⟨_, hd, .inl rfl⟩
  case seR | sneR | ldR | orR | andR | xorR | addR | sub | shr | subn | shl | drw16 =>
    have hd := decodeWord_of_F00F h
    simp only [fieldClass, fieldN, BitVec.reduceExtractLsb'] at hd
    exact ⟨_, hd, .inl rfl⟩
  case skp | sknp | ldVxDt | ldVxK | ldDtVx | ldStVx | addIdx | ldF | ldHf | ldB | ldMemVx | ldVxMem =>
    have hd := decodeWord_of_F0FF h
    simp only [fieldClass, fieldY, fieldN, BitVec.reduceExtractLsb'] at hd
    exact ⟨_, hd, .inl rfl⟩
  case drw =>
    have hd := decodeWord_of_F000 h
    simp only [fieldClass, BitVec.reduceExtractLsb'] at hd
    by_cases hn : fieldN w = 0
    · exact ⟨_, hd.trans (if_pos hn), .inr ⟨rfl, rfl⟩⟩
    · exact ⟨_, hd.trans (if_neg hn), .inl rfl⟩

/-- Settles O3: a decoded word is the encoder's word of its instruction, which matches the row. -/
theorem decodingFollowsTheOpcodeMap : Obligations.DecodingFollowsTheOpcodeMap := by
  refine ⟨fun w i h => ?_, fun w j h => decodes_of_matches_row h⟩
  obtain ⟨-, rfl⟩ := decodingDropsNoBit w i h
  exact encodeWord_matches_row i

end Sys2Proof

namespace Sys2Proof.Machine

/-! ## What a STEP does with the word at `pc` (R70, R153) -/

section
variable {s u : State} (hf : s.fault = none) (hu : StepIsNext s u)
include hf hu

/-- A STEP on a machine with no fault latched runs its body. -/
theorem step_of_running : step s = withFreshInputs (stepBody u) := by
  rw [step_of_stepIsNext hu, stepEvent_running (hu.fault_eq.trans hf)]

/-- A STEP that fetches a legal word runs its instruction (R70). -/
theorem step_of_decoded {i : Instr} (hm : inMemory s.pc.toNat 2) (hd : decodeWord s.fetchWord = some i) :
    step s = withFreshInputs (exec i (u.setPc (s.pc + 2))) := by
  rw [← hu.pc_eq] at hm ⊢
  rw [← hu.fetchWord_eq] at hd
  rw [step_of_running hf hu, stepBody_decoded hm hd]

/-- A STEP whose body latches a fault of the fetch: the host reads that fault, and nothing else of CORE changed (R153). -/
theorem step_of_latch {c : Cause} {info : Word} (hb : stepBody u = .next (u.latch u.pc c info)) :
    ∃ t, step s = .next t ∧ t.getFault = portOf (some ⟨c, s.pc, info⟩) ∧ KeptExcept [.fault, .host] s t := by
  refine ⟨(u.latch u.pc c info).drawInputs, ?_, ?_, ?_⟩
  · rw [step_of_running hf hu, hb, withFreshInputs_next]
  · rw [State.getFault_eq, State.drawInputs_fault, State.latch_fault, hu.pc_eq]
  · have hlatch : KeptExcept [.fault] u (u.latch u.pc c info) := by constructor <;> simp
    exact ((hu.kept.append hlatch).append (KeptExcept.drawInputs _)).mono (by simp)

end

/-- Settles O5: the two bytes decode as the word they form. -/
theorem stepRunsTheDecodedInstruction : Obligations.StepRunsTheDecodedInstruction := by
  intro s u i hf hu hm hd
  exact step_of_decoded hf hu hm (decode_pair_eq_instr_iff.mp hd)

/-- Settles O6: no word lies at such a `pc`. -/
theorem fetchOutOfBoundsFaults : Obligations.FetchOutOfBoundsFaults := by
  intro s u hf hu hpc
  have hout : ¬ inMemory u.pc.toNat 2 := by
    rw [hu.pc_eq, inMemory_iff]
    omega
  have hstep := step_of_latch hf hu (stepBody_outside hout)
  rwa [hu.pc_eq] at hstep

/-- Settles O7: the word is fetched and does not decode. -/
theorem illegalWordFaults : Obligations.IllegalWordFaults := by
  intro s u hf hu hm hd
  rw [← hu.pc_eq] at hm
  rw [← hu.fetchWord_eq] at hd ⊢
  exact step_of_latch hf hu (stepBody_illegal hm hd)

/-- Settles O10: `00EE` by the two cases of the stack; every other instruction answers one next state by its definition. -/
theorem everyInstructionAnswersANextState : Obligations.EveryInstructionAnswersANextState := by
  intro i s
  cases i
  case ret =>
    cases hs : s.stack with
    | nil => exact ⟨_, exec_ret_empty hs⟩
    | cons a rest => exact ⟨_, exec_ret_pops hs⟩
  all_goals exact ⟨_, rfl⟩

/-! ## The state that `withFetchWord` makes (log entry 15) -/

/-- A table word decodes to what its 16 bits decode to. -/
theorem decodeTableWord_eq (nbits w : Nat) : decodeTableWord nbits w = decodeWord (tableWord nbits w) := by
  cases h : decodeWord (tableWord nbits w) <;> simp [decodeTableWord, decode, h]

/-- Where a word is fetched there is one in memory. -/
theorem State.inMemory_fetchablePc (s : State) : inMemory s.fetchablePc.toNat 2 := by
  unfold State.fetchablePc
  split
  · assumption
  · decide

/-- A word stored as the hardware lays it out is read back (R57). -/
theorem State.readWord_writeBytes (s : State) (a : Nat) (w : Word) :
    (s.writeBytes a [firstByte w, secondByte w]).readWord a = w := by
  simp [State.readWord, Memory.read_writeList]

section
variable (s : State) (nbits w : Nat)

@[simp] theorem State.withFetchWord_fault : (s.withFetchWord nbits w).fault = none := rfl

@[simp] theorem State.withFetchWord_pending :
    (s.withFetchWord nbits w).pending = s.pending.dropWhile fun e => !e.isStep := rfl

/-- The word placed is the word fetched. -/
theorem State.withFetchWord_fetchWord : (s.withFetchWord nbits w).fetchWord = tableWord nbits w :=
  State.readWord_writeBytes _ _ _

/-- The first event left is a STEP, or none is left. -/
theorem State.withFetchWord_stepIsNext : ∃ u, StepIsNext (s.withFetchWord nbits w) u := by
  rcases next_event_cases (s.withFetchWord nbits w) with hu | ⟨e, es, he, hstep⟩
  · exact hu
  · have hhead := List.head?_dropWhile_not (fun e => !e.isStep) s.pending
    rw [← State.withFetchWord_pending s nbits w, he] at hhead
    simp [hstep] at hhead

variable {s}

/-- Where the next STEP can fetch already, only the two bytes at `pc` and the host's events change. -/
theorem State.withFetchWord_kept (hf : s.fault = none) (hm : inMemory s.pc.toNat 2) :
    KeptExcept [.bytes s.pc.toNat 2, .host] s (s.withFetchWord nbits w) := by
  have hplaced : s.withFetchWord nbits w = (s.setPending (s.pending.dropWhile fun e => !e.isStep)).writeBytes s.pc.toNat
      [firstByte (tableWord nbits w), secondByte (tableWord nbits w)] := by
    have hpc : s.fetchablePc = s.pc := if_pos hm
    rw [State.withFetchWord, State.placeTableWord, hpc, ← hf]
    rfl
  rw [hplaced]
  exact ((KeptExcept.setPending s _).append (KeptExcept.writeBytes _ _ 2 _ rfl)).mono (by simp)

end

/-- Settles O9: the next event is a STEP, which fetches the word placed. -/
theorem withFetchWordRunsTheWord : Obligations.WithFetchWordRunsTheWord := by
  intro s w i hd
  refine ⟨?_, State.withFetchWord_kept 16 w⟩
  obtain ⟨u, hu⟩ := s.withFetchWord_stepIsNext 16 w
  have hm : inMemory (s.withFetchWord 16 w).pc.toNat 2 := s.inMemory_fetchablePc
  have hword : decodeWord (s.withFetchWord 16 w).fetchWord = some i := by
    rw [State.withFetchWord_fetchWord, ← decodeTableWord_eq, hd]
  exact ⟨u, hu, step_of_decoded (s.withFetchWord_fault 16 w) hu hm hword⟩

end Sys2Proof.Machine

/-! SUPPORT. Proofs about class 0: scrolling, clearing, the two resolutions, the return and the halt. -/

namespace Sys2Proof.Machine

/-! ## Scrolling (R90, R93, R94) -/

/-- Settles O29: row by row, as `Frame.lit_scrollDown` says of the frame. -/
theorem scrollDownMovesRows : Obligations.ScrollDownMovesRows := by
  intro n s
  refine ⟨s.setFb (s.fb.scrollDown s.height n.toNat), rfl, fun x y _ hy => ?_, KeptExcept.setFb s _⟩
  rw [State.setFb_pixel, Frame.lit_scrollDown _ _ _ _ _ hy, Bool.if_false_right, State.pixel]

/-- Settles O30: column by column, as `Frame.lit_scrollRight` and `Frame.lit_scrollLeft` say of the frame. -/
theorem scrollSidewaysMovesColumns : Obligations.ScrollSidewaysMovesColumns := by
  intro s
  constructor
  · refine ⟨s.setFb (s.fb.scrollRight s.width), rfl, fun x y hx _ => ?_, KeptExcept.setFb s _⟩
    rw [State.setFb_pixel, Frame.lit_scrollRight _ _ _ _ hx, Bool.if_false_right, State.pixel]
  · refine ⟨s.setFb (s.fb.scrollLeft s.width), rfl, fun x y _ _ => ?_, KeptExcept.setFb s _⟩
    rw [State.setFb_pixel, Frame.lit_scrollLeft, Bool.if_false_right, State.pixel]

/-! ## Clearing the grid (R91, R96, R97) -/

/-- The words of the three instructions decode to them, as the words of all well-formed instructions do. -/
theorem decodeWord_clearAndResolution :
    decodeWord 0x00E0 = some .cls ∧ decodeWord 0x00FE = some .low ∧ decodeWord 0x00FF = some .high :=
  ⟨decodeWord_encodeWord (i := .cls) rfl, decodeWord_encodeWord (i := .low) rfl, decodeWord_encodeWord (i := .high) rfl⟩

/-- Settles O31: each of the three leaves an empty frame. -/
theorem clearAndResolutionBlankTheGrid : Obligations.ClearAndResolutionBlankTheGrid := by
  obtain ⟨hcls, hlow, hhigh⟩ := decodeWord_clearAndResolution
  refine ⟨hcls, hlow, hhigh, fun s => ⟨?_, ?_, ?_⟩⟩
  · exact ⟨s.setFb [], rfl, Frame.lit_nil, KeptExcept.setFb s []⟩
  · exact ⟨s.setMode false, rfl, rfl, rfl, rfl, s.setMode_pixel false, KeptExcept.setMode s false⟩
  · exact ⟨s.setMode true, rfl, rfl, rfl, rfl, s.setMode_pixel true, KeptExcept.setMode s true⟩

/-! ## Call and return (R92, R101) -/

/-- Taking a fault inside an instruction is what R150 and R153 make of it. -/
theorem State.raise_raises (s : State) (cause : Cause) (info : Word) : Raises cause info s (s.raise cause info) :=
  ⟨rfl, rfl, s.raise_kept cause info⟩

/-- Settles O32, by the two cases of the stack. -/
theorem returnPopsTheStack : Obligations.ReturnPopsTheStack := by
  refine ⟨decodeWord_encodeWord (i := .ret) rfl, fun s => ⟨fun a rest hs => ?_, fun hs => ?_⟩⟩
  · have hkept : KeptExcept [.pc, .stack] s ((s.setStack rest).setPc a) :=
      ((KeptExcept.setStack s rest).append (KeptExcept.setPc _ a)).mono (by simp)
    exact ⟨_, exec_ret_pops hs, rfl, rfl, hkept⟩
  · exact ⟨_, exec_ret_empty hs, s.raise_raises _ _⟩

/-- `2NNN` where `STACK` has room (R101). -/
theorem exec_call_of_room {s : State} (nnn : Addr12) (h : ∀ d, s.params.stackDepth = some d → s.stack.length < d) :
    exec (.call nnn) s = .next ((s.push s.pc).setPc (extendNNN nnn)) := by
  have hroom : ¬ s.stackFull = true := by
    rw [State.stackFull_iff]
    rintro ⟨d, hd, hfull⟩
    exact absurd (h d hd) hfull.not_gt
  exact congrArg Host.Outcome.next (if_neg hroom)

/-- Settles O36: the return pops what the call has pushed, so the very same state comes back. -/
theorem callThenReturnComesBack : Obligations.CallThenReturnComesBack := by
  intro nnn s hroom
  exact ⟨_, s, exec_call_of_room nnn hroom, exec_ret_pops rfl, KeptExcept.rfl' s _⟩

/-! ## The halt (R95, D35) -/

/-- SELF_LOOP: the word at `pc`, in memory, is `00FD`. -/
theorem State.selfLoop_iff (s : State) : s.selfLoop = true ↔ inMemory s.pc.toNat 2 ∧ s.fetchWord = 0x00FD := by
  simp [State.selfLoop]

/-- SELF_LOOP is about CORE alone. -/
theorem KeptExcept.selfLoop_eq {s t : State} (h : KeptExcept [.host] s t) : t.selfLoop = s.selfLoop := by
  have hpc : t.pc = s.pc := h.pc (by simp)
  have hmem : ∀ a, t.readByte a = s.readByte a := fun a => h.memory a (by simp [Part.coversAddress])
  simp only [State.selfLoop, State.fetchWord, State.readWord, hpc, hmem]

/-- A STEP at SELF_LOOP goes back to where it began: only new inputs are drawn. -/
theorem step_of_selfLoop {s u : State} (hf : s.fault = none) (hu : StepIsNext s u) (hloop : s.selfLoop = true) :
    step s = .next u.drawInputs := by
  obtain ⟨hm, hword⟩ := s.selfLoop_iff.mp hloop
  have hd : decodeWord s.fetchWord = some .exit := hword ▸ decodeWord_encodeWord (i := .exit) rfl
  calc
    step s = withFreshInputs (.next (u.setPc (s.pc + 2)).rewind) := step_of_decoded hf hu hm hd
    _ = .next u.drawInputs := by rw [← hu.pc_eq, u.setPc_advance_rewind, withFreshInputs_next]

/-- Settles O33: `00FD` rewinds `pc`, so a STEP at SELF_LOOP changes the host's side only. -/
theorem exitIsASelfLoop : Obligations.ExitIsASelfLoop := by
  refine ⟨fun s => ⟨s.rewind, rfl, rfl, KeptExcept.setPc s _⟩, fun s u hf hu hloop => ?_⟩
  have hkept : KeptExcept [.host] s u.drawInputs := hu.kept.trans (KeptExcept.drawInputs u)
  exact ⟨_, step_of_selfLoop hf hu hloop, hkept, hkept.selfLoop_eq.trans hloop⟩

end Sys2Proof.Machine

/-! SUPPORT. Proofs about classes 1 to 7 and 9: jump, call, the conditional skips, immediate load and add. -/

namespace Sys2Proof

/-! ## Encodings with an immediate, written field by field -/

/-- A word written as class and `NNN` decodes to the instruction the encoder packs so. -/
theorem decodeWord_append_NNN {i : Instr} {c : Nibble} {nnn : Addr12} (hwf : i.wellFormed = true)
    (he : encodeWord i = packNNN c nnn) : decodeWord (c ++ nnn) = some i := by
  rw [append_NNN, ← he, decodeWord_encodeWord hwf]

/-- A word written as class, `X` and `NN` decodes to the instruction the encoder packs so. -/
theorem decodeWord_append_XNN {i : Instr} {c : Nibble} {x : Reg} {nn : Byte} (hwf : i.wellFormed = true)
    (he : encodeWord i = packXNN c x nn) : decodeWord (c ++ ofReg x ++ nn) = some i := by
  rw [append_XNN, ← packXNN, ← he, decodeWord_encodeWord hwf]

end Sys2Proof

namespace Sys2Proof.Machine

/-! ## Jump and call (R100, R101) -/

/-- `2NNN` where `STACK` is full (R29, D3). -/
theorem exec_call_of_full {s : State} (nnn : Addr12) {d : Nat} (hd : s.params.stackDepth = some d)
    (hfull : d ≤ s.stack.length) : exec (.call nnn) s = .next (s.raise .stackOverflow 0) :=
  congrArg Host.Outcome.next (if_pos (s.stackFull_iff.mpr ⟨d, hd, hfull⟩))

/-- Settles O35, by the two cases of the stack. -/
theorem callPushesTheReturnAddress : Obligations.CallPushesTheReturnAddress := by
  intro nnn s
  refine ⟨fun hroom => ?_, fun d hd hfull => ?_⟩
  · have hkept : KeptExcept [.pc, .stack] s ((s.push s.pc).setPc (extendNNN nnn)) :=
      ((KeptExcept.setStack s _).append (KeptExcept.setPc _ _)).mono (by simp)
    exact ⟨_, exec_call_of_room nnn hroom, toNat_extendNNN nnn, rfl, hkept⟩
  · exact ⟨_, exec_call_of_full nnn hd hfull, s.raise_raises _ _⟩

/-- Settles O34: `pc` alone is set. -/
theorem jumpSetsPc : Obligations.JumpSetsPc := by
  intro nnn s
  exact ⟨decodeWord_append_NNN rfl rfl, s.setPc (extendNNN nnn), rfl, toNat_extendNNN nnn, KeptExcept.setPc s _⟩

/-! ## The conditional skips (R102 to R105) -/

section
variable {i : Instr} {s : State} {a b : Byte}

/-- An instruction that skips on equality moves `pc` by 2 iff the two values are equal, and nothing else. -/
theorem skips_of_exec_beq (h : exec i s = .next (s.skipIf (a == b))) :
    ∃ t, exec i s = .next t ∧ t.pc = (if a = b then s.pc + 2 else s.pc) ∧ KeptExcept [.pc] s t :=
  ⟨_, h, by simp, KeptExcept.setPc s _⟩

/-- An instruction that skips on inequality moves `pc` by 2 iff the two values differ, and nothing else. -/
theorem skips_of_exec_bne (h : exec i s = .next (s.skipIf (a != b))) :
    ∃ t, exec i s = .next t ∧ t.pc = (if a = b then s.pc else s.pc + 2) ∧ KeptExcept [.pc] s t :=
  ⟨_, h, by simp, KeptExcept.setPc s _⟩

end

/-- Settles O37: the register is compared with the immediate. -/
theorem skipsOnImmediate : Obligations.SkipsOnImmediate := by
  intro x nn s
  exact ⟨decodeWord_append_XNN rfl rfl, decodeWord_append_XNN rfl rfl, skips_of_exec_beq rfl, skips_of_exec_bne rfl⟩

/-- Settles O38: the register is compared with another. -/
theorem skipsOnRegisters : Obligations.SkipsOnRegisters := by
  intro x y s
  exact ⟨skips_of_exec_beq rfl, skips_of_exec_bne rfl⟩

/-! ## Immediate load and add (R106, R107) -/

/-- Settles O39: one write of `V[X]`, of the byte or of the sum of bytes, which wraps. -/
theorem immediateLoadAndAdd : Obligations.ImmediateLoadAndAdd := by
  intro x nn s
  refine ⟨decodeWord_append_XNN rfl rfl, decodeWord_append_XNN rfl rfl, ?_, ?_⟩
  · exact ⟨s.setV x nn, rfl, by simp, KeptExcept.setV s x nn⟩
  · have hsum : ((s.setV x (s.getV x + nn)).getV x).toNat = ((s.getV x).toNat + nn.toNat) % 256 := by
      rw [State.setV_getV, if_pos rfl, BitVec.toNat_add]
    exact ⟨_, rfl, hsum, KeptExcept.setV s x _⟩

end Sys2Proof.Machine

/-! SUPPORT. Proofs about class 8: move, logic, arithmetic and shift after the prologue. -/

namespace Sys2Proof.Machine

/-! ## What the class-8 results and flags are as numbers (R115 to R119) -/

theorem carryFlag_eq (a b : Byte) : carryFlag a b = if 256 ≤ a.toNat + b.toNat then 1 else 0 := by
  simp [carryFlag, flag]

theorem noBorrowFlag_eq (a b : Byte) : noBorrowFlag a b = if b.toNat ≤ a.toNat then 1 else 0 := by
  simp [noBorrowFlag, flag]

theorem toNat_sub_byte (a b : Byte) : (a - b).toNat = (256 + a.toNat - b.toNat) % 256 := by
  have := b.isLt
  rw [BitVec.toNat_sub]
  omega

theorem toNat_shiftRight (src : Byte) : (shiftRight src).toNat = src.toNat / 2 := by
  have := src.isLt
  rw [shiftRight, BitVec.toNat_ofNat, Nat.mod_eq_of_lt (by omega)]

theorem toNat_lowBitFlag (src : Byte) : (lowBitFlag src).toNat = src.toNat % 2 := by
  rw [lowBitFlag, BitVec.toNat_ofNat, Nat.mod_eq_of_lt (by omega)]

theorem toNat_shiftLeft (src : Byte) : (shiftLeft src).toNat = src.toNat * 2 % 256 := BitVec.toNat_ofNat _ _

theorem toNat_highBitFlag (src : Byte) : (highBitFlag src).toNat = src.toNat / 128 := by
  have := src.isLt
  rw [highBitFlag, BitVec.toNat_ofNat, Nat.mod_eq_of_lt (by omega)]

/-! ## The prologue (R110, D7) -/

section
variable (s : State)

theorem State.aluOperand_VF : s.aluOperand VF = s.vfAfterPrologue := by
  simp [State.aluOperand, State.vfAfterPrologue]

/-- The prologue leaves the quirks, so a shift's source after it is one of the two operands (R117, R119). -/
theorem State.vfPrologue_shiftSource (x y : Reg) :
    s.vfPrologue.shiftSource x y = if s.quirks.shifting = .operandX then s.aluOperand x else s.aluOperand y := by
  simp only [State.shiftSource, State.vfPrologue_quirks, State.vfPrologue_getV]
  cases s.quirks.shifting <;> rfl

end

/-! ## The two shapes of a class-8 meaning: a result alone, and a result and then the flag -/

section
variable {i : Instr} {s : State} {x : Reg} {r f a b : Byte}

/-- An instruction that writes a result after the prologue leaves in another `V[15]` what the prologue has left there. -/
theorem setsResult_of_exec (h : exec i s = .next (s.vfPrologue.setV x r)) :
    ∃ t, exec i s = .next t ∧ t.getV x = r ∧ (x ≠ VF → t.getV VF = s.vfAfterPrologue) ∧
      KeptExcept [.reg x, .reg VF] s t := by
  refine ⟨_, h, by simp, fun hx => ?_, ?_⟩
  · rw [State.setV_getV, if_neg hx.symm, State.vfPrologue_getV, State.aluOperand_VF]
  · exact ((KeptExcept.vfPrologue s).append (KeptExcept.setV _ x r)).mono (by simp)

/-- An instruction that writes a result and then the flag ends with the flag in `V[15]`, also where that is `V[X]` (D13). -/
theorem setsResultAndFlag_of_exec (h : exec i s = .next (s.vfPrologue.setResultAndFlag x r f)) :
    ∃ t, exec i s = .next t ∧ (x ≠ VF → t.getV x = r) ∧ t.getV VF = f ∧ KeptExcept [.reg x, .reg VF] s t := by
  refine ⟨_, h, fun hx => by simp [hx], by simp, ?_⟩
  have hwrites := (KeptExcept.setV s.vfPrologue x r).append (KeptExcept.setV _ VF f)
  exact ((KeptExcept.vfPrologue s).append hwrites).mono (by simp)

/-- The same with the result and the flag given as numbers. -/
theorem setsNumbers_of_exec {n m : Nat} (h : exec i s = .next (s.vfPrologue.setResultAndFlag x r f))
    (hr : r.toNat = n) (hf : f.toNat = m) :
    ∃ t, exec i s = .next t ∧ (x ≠ VF → (t.getV x).toNat = n) ∧ (t.getV VF).toNat = m ∧
      KeptExcept [.reg x, .reg VF] s t := by
  obtain ⟨t, ht, hresult, hflag, hkept⟩ := setsResultAndFlag_of_exec h
  exact ⟨t, ht, fun hx => by rw [hresult hx, hr], by rw [hflag, hf], hkept⟩

theorem subtracts_of_exec (h : exec i s = .next (s.vfPrologue.setResultAndFlag x (a - b) (noBorrowFlag a b))) :
    ∃ t, exec i s = .next t ∧ (x ≠ VF → (t.getV x).toNat = (256 + a.toNat - b.toNat) % 256) ∧
      t.getV VF = (if b.toNat ≤ a.toNat then 1 else 0) ∧ KeptExcept [.reg x, .reg VF] s t := by
  obtain ⟨t, ht, hresult, hflag, hkept⟩ := setsResultAndFlag_of_exec h
  exact ⟨t, ht, fun hx => by rw [hresult hx, toNat_sub_byte], by rw [hflag, noBorrowFlag_eq], hkept⟩

end

/-! ## Move and logic (R111 to R114) -/

/-- Settles O40: the four write a result alone, on operands read after the prologue. -/
theorem moveAndLogic : Obligations.MoveAndLogic := by
  intro x y s
  simp only [← State.vfPrologue_getV]
  exact ⟨setsResult_of_exec rfl, setsResult_of_exec rfl, setsResult_of_exec rfl, setsResult_of_exec rfl⟩

/-! ## Add, subtract and shift (R115 to R119) -/

/-- Settles O41: the sum of bytes wraps, and the flag is the carry. -/
theorem addSetsTheCarry : Obligations.AddSetsTheCarry := by
  intro x y s
  simp only [← State.vfPrologue_getV]
  obtain ⟨t, ht, hresult, hflag, hkept⟩ := setsResultAndFlag_of_exec (i := .addR x y) (s := s) rfl
  exact ⟨t, ht, fun hx => by rw [hresult hx, BitVec.toNat_add], by rw [hflag, carryFlag_eq], hkept⟩

/-- Settles O42: the two subtractions differ in the order of the operands only. -/
theorem subtractSetsNoBorrow : Obligations.SubtractSetsNoBorrow := by
  intro x y s
  simp only [← State.vfPrologue_getV]
  exact ⟨subtracts_of_exec rfl, subtracts_of_exec rfl⟩

/-- Settles O43: both shifts work on the source the quirk selects, and the flag is the bit pushed out. -/
theorem shiftsByOne : Obligations.ShiftsByOne := by
  intro x y s src hsrc
  rw [← State.vfPrologue_shiftSource] at hsrc
  subst hsrc
  exact ⟨setsNumbers_of_exec rfl (toNat_shiftRight _) (toNat_lowBitFlag _),
    setsNumbers_of_exec rfl (toNat_shiftLeft _) (toNat_highBitFlag _)⟩

end Sys2Proof.Machine

/-! SUPPORT. Proofs about classes A, B and C: index load, jump with offset, random byte. -/

namespace Sys2Proof

/-- The lower two nibbles of `NNN`, joined, are its low byte. -/
theorem toNat_lowByteNNN (nnn : Addr12) : (joinNN (midNNN nnn) (loNNN nnn)).toNat = nnn.toNat % 256 := by
  rw [toNat_joinNN, toNat_midNNN, toNat_loNNN]
  omega

/-- The register named by the high nibble of `NNN` is the one with that number. -/
theorem toReg_hiNNN_of_val {x : Reg} {nnn : Addr12} (hx : x.val = nnn.toNat / 256) : toReg (hiNNN nnn) = x :=
  Fin.ext ((toNat_hiNNN nnn).trans hx.symm)

end Sys2Proof

namespace Sys2Proof.Machine

/-! ## Index load (R120) -/

/-- Settles O44: `I` alone is set. -/
theorem loadIndexImmediate : Obligations.LoadIndexImmediate := by
  intro nnn s
  exact ⟨decodeWord_append_NNN rfl rfl, s.setI (extendNNN nnn), rfl, toNat_extendNNN nnn, KeptExcept.setI s _⟩

/-! ## Jump with offset (R121, D9) -/

/-- A byte and an offset of 12 bits add up within 16 bits, so the sum is exact. -/
theorem toNat_extendByte_add (b : Byte) {a : Word} (ha : a.toNat < 4096) :
    (extendByte b + a).toNat = b.toNat + a.toNat := by
  have hb := b.isLt
  rw [BitVec.toNat_add, toNat_extendByte, Nat.mod_eq_of_lt (by omega)]

section
variable {s : State}

theorem State.toNat_offsetTarget_classic (nnn : Addr12) (h : s.quirks.jump = .classic) :
    (s.offsetTarget nnn).toNat = (s.getV 0).toNat + nnn.toNat := by
  have hnnn : (extendNNN nnn).toNat < 4096 := toNat_extendNNN nnn ▸ nnn.isLt
  simp only [State.offsetTarget, h]
  rw [toNat_extendByte_add _ hnnn, toNat_extendNNN]

theorem State.toNat_offsetTarget_offsetByX {nnn : Addr12} {x : Reg} (h : s.quirks.jump = .offsetByX)
    (hx : x.val = nnn.toNat / 256) : (s.offsetTarget nnn).toNat = (s.getV x).toNat + nnn.toNat % 256 := by
  have hnn : (extendByte (joinNN (midNNN nnn) (loNNN nnn))).toNat = nnn.toNat % 256 := by
    rw [toNat_extendByte, toNat_lowByteNNN]
  simp only [State.offsetTarget, h]
  rw [toReg_hiNNN_of_val hx, toNat_extendByte_add _ (by omega), hnn]

end

/-- Settles O45: `pc` alone is set, to the exact sum of the offset the quirk selects. -/
theorem jumpWithOffset : Obligations.JumpWithOffset := by
  intro nnn s
  exact ⟨s.setPc (s.offsetTarget nnn), rfl, State.toNat_offsetTarget_classic nnn,
    fun hq _ hx => State.toNat_offsetTarget_offsetByX hq hx, KeptExcept.setPc s _⟩

/-! ## Random byte (R122, D20) -/

/-- Settles O46: one write of `V[X]`, of the byte on the port masked by `NN`; the mask 0 leaves nothing of it. -/
theorem randomByteIsMasked : Obligations.RandomByteIsMasked := by
  intro x nn s
  have hv : (s.setV x (s.inRnd &&& nn)).getV x = s.inRnd &&& nn := by rw [State.setV_getV, if_pos rfl]
  have hzero : nn = 0 → (s.setV x (s.inRnd &&& nn)).getV x = 0 := by
    rintro rfl
    exact hv.trans BitVec.and_zero
  exact ⟨_, rfl, hv, hzero, KeptExcept.setV s x _⟩

end Sys2Proof.Machine

/-! SUPPORT. Proofs about class D: which pixels a sprite toggles, and what a second draw undoes. -/

namespace Sys2Proof.Machine

/-! ## One draw (R125 to R127, R129; D14, D15, D26, D31) -/

section
variable {x y : Reg} {rows bpr size : Nat} {s : State}

/-- The flag of a draw: a pixel the sprite covers was on. -/
theorem State.draw_flag_iff (hr : rows ≤ 32) (hb : 8 * bpr ≤ 64) :
    (s.fb.draw (s.drawPoints x y rows bpr)).2 = true ↔
      ∃ px py, s.SpriteCovers x y rows bpr px py ∧ s.pixel px py = true := by
  obtain ⟨-, hflag⟩ := Frame.draw_spec _ s.fb (s.nodup_drawPoints x y rows bpr hr hb)
  rw [hflag]
  constructor
  · rintro ⟨⟨px, py⟩, hpoint, hlit⟩
    exact ⟨px, py, (s.mem_drawPoints ..).mp hpoint, (Frame.lit_iff ..).mpr hlit⟩
  · rintro ⟨px, py, hcov, hon⟩
    exact ⟨⟨px, py⟩, (s.mem_drawPoints ..).mpr hcov, (Frame.lit_iff ..).mp hon⟩

/-- A sprite in memory, no larger than the smaller grid, is drawn. -/
theorem State.draw_draws (hr : rows ≤ 32) (hb : 8 * bpr ≤ 64) (hm : inMemory s.i.toNat (rows * bpr)) :
    Draws x y rows bpr s (s.draw x y rows bpr) := by
  rw [s.draw_inside x y rows bpr hm]
  refine ⟨fun px py => ?_, ?_, (KeptExcept.setFb s _).append (KeptExcept.setV _ VF _)⟩
  · obtain ⟨hpoints, -⟩ := Frame.draw_spec _ s.fb (s.nodup_drawPoints x y rows bpr hr hb)
    have hpixel := hpoints ⟨px, py⟩
    rw [s.mem_drawPoints, ← Frame.lit_iff, ← Frame.lit_iff, Bool.not_eq_true] at hpixel
    exact hpixel
  · have hflag := State.draw_flag_iff (x := x) (y := y) (s := s) hr hb
    rw [State.setV_getV, if_pos rfl]
    cases hd : (s.fb.draw (s.drawPoints x y rows bpr)).2 with
    | true => exact .inl ⟨rfl, hflag.mp hd⟩
    | false =>
      refine .inr ⟨rfl, fun px py hcov => Bool.eq_false_iff.mpr fun hon => ?_⟩
      exact Bool.false_ne_true (hd.symm.trans (hflag.mpr ⟨px, py, hcov, hon⟩))

/-- What an instruction that draws a sprite of `size` bytes does when they lie in memory, and when they do not. -/
theorem draws_or_raises_of_exec {i : Instr} (hexec : exec i s = .next (s.draw x y rows bpr)) (hsize : rows * bpr = size)
    (hr : rows ≤ 32) (hb : 8 * bpr ≤ 64) :
    (s.i.toNat + size ≤ 4096 → ∃ t, exec i s = .next t ∧ Draws x y rows bpr s t) ∧
    (4096 < s.i.toNat + size → ∃ t, exec i s = .next t ∧
      Raises .outOfBoundsAccess (BitVec.ofNat 16 (max s.i.toNat 4096)) s t) := by
  subst hsize
  refine ⟨fun hin => ⟨_, hexec, State.draw_draws hr hb hin⟩, fun hout => ⟨_, hexec, ?_⟩⟩
  rw [s.draw_outside x y rows bpr hout.not_ge]
  exact s.raise_raises _ _

end

/-- Settles O47: a draw of `n` rows of one byte, and one of 16 rows of two. -/
theorem spritesToggleThePixelsTheyCover : Obligations.SpritesToggleThePixelsTheyCover := by
  refine ⟨fun x y n s => ?_, fun x y s => ?_⟩
  · have hn : n.toNat < 16 := n.isLt
    exact draws_or_raises_of_exec rfl (Nat.mul_one _) (by omega) (by decide)
  · exact draws_or_raises_of_exec rfl rfl (by decide) (by decide)

/-! ## Two draws (R128) -/

section
variable {x y : Reg} {rows bpr px py : Nat} {s t u : State}

theorem Draws.kept (h : Draws x y rows bpr s t) : KeptExcept [.pixels, .reg VF] s t := by
  obtain ⟨-, -, hkept⟩ := h
  exact hkept

theorem Draws.pixel_of_covers (h : Draws x y rows bpr s t) (hcov : s.SpriteCovers x y rows bpr px py) :
    t.pixel px py = !s.pixel px py := by
  obtain ⟨hpixel, -, -⟩ := h
  rw [Bool.eq_iff_iff, hpixel]
  simp [hcov]

theorem Draws.pixel_of_not_covers (h : Draws x y rows bpr s t) (hcov : ¬ s.SpriteCovers x y rows bpr px py) :
    t.pixel px py = s.pixel px py := by
  obtain ⟨hpixel, -, -⟩ := h
  rw [Bool.eq_iff_iff, hpixel]
  simp [hcov]

theorem Draws.flag_eq_one_iff (h : Draws x y rows bpr s t) :
    t.getV VF = 1 ↔ ∃ px py, s.SpriteCovers x y rows bpr px py ∧ s.pixel px py = true := by
  obtain ⟨-, ⟨hflag, hon⟩ | ⟨hflag, hoff⟩, -⟩ := h
  · exact iff_of_true hflag hon
  · refine iff_of_false (by rw [hflag]; decide) ?_
    rintro ⟨px, py, hcov, hon⟩
    exact Bool.false_ne_true ((hoff px py hcov).symm.trans hon)

/-- What a sprite covers is read from `V[X]`, `V[Y]`, `I`, memory, the mode and the quirks. A draw changes none of them
when `X` and `Y` are not 15. -/
theorem Draws.spriteCovers_eq (h : Draws x y rows bpr s t) (hx : x ≠ VF) (hy : y ≠ VF) :
    t.SpriteCovers x y rows bpr = s.SpriteCovers x y rows bpr := by
  have hkept := h.kept
  have hvx : t.getV x = s.getV x := hkept.regs x (by simp [hx])
  have hvy : t.getV y = s.getV y := hkept.regs y (by simp [hy])
  have hi : t.i = s.i := hkept.index (by simp)
  have hmem : ∀ a, t.readByte a = s.readByte a := fun a => hkept.memory a (by simp [Part.coversAddress])
  have hmode : t.hires = s.hires := hkept.hires (by simp)
  have hquirks : t.quirks = s.quirks := hkept.quirks (by simp)
  funext px py
  simp only [State.SpriteCovers, State.spriteBit, State.width, State.height, hvx, hvy, hi, hmem, hmode, hquirks]

/-- A second draw of the same sprite undoes the first. -/
theorem Draws.pixel_twice (h : Draws x y rows bpr s t) (g : Draws x y rows bpr t u) (hx : x ≠ VF) (hy : y ≠ VF)
    (px py : Nat) : u.pixel px py = s.pixel px py := by
  have hsame := h.spriteCovers_eq hx hy
  by_cases hcov : s.SpriteCovers x y rows bpr px py
  · rw [g.pixel_of_covers (hsame ▸ hcov), h.pixel_of_covers hcov, Bool.not_not]
  · rw [g.pixel_of_not_covers (hsame ▸ hcov), h.pixel_of_not_covers hcov]

/-- An instruction that draws wherever the sprite lies in memory draws twice in a row: the first draw leaves `I`. -/
theorem drawsTwice_of_exec {i : Instr} {size : Nat}
    (hdraws : ∀ s : State, s.i.toNat + size ≤ 4096 → ∃ t, exec i s = .next t ∧ Draws x y rows bpr s t)
    (hx : x ≠ VF) (hy : y ≠ VF) (hm : s.i.toNat + size ≤ 4096) :
    ∃ t u, exec i s = .next t ∧ exec i t = .next u ∧ (∀ px py, u.pixel px py = s.pixel px py) ∧
      (u.getV VF = 1 ↔ ∃ px py, s.SpriteCovers x y rows bpr px py ∧ t.pixel px py = true) := by
  obtain ⟨t, ht, hst⟩ := hdraws s hm
  have hi : t.i = s.i := hst.kept.index (by simp)
  obtain ⟨u, hu, htu⟩ := hdraws t (hi ▸ hm)
  have hflag := htu.flag_eq_one_iff
  rw [hst.spriteCovers_eq hx hy] at hflag
  exact ⟨t, u, ht, hu, hst.pixel_twice htu hx hy, hflag⟩

end

/-- Settles O48: both instructions draw, as O47 says, so both draw twice. -/
theorem drawingTwiceRestoresTheDisplay : Obligations.DrawingTwiceRestoresTheDisplay := by
  obtain ⟨hdrw, hdrw16⟩ := spritesToggleThePixelsTheyCover
  exact ⟨fun x y n _ => drawsTwice_of_exec fun s => (hdrw x y n s).1,
    fun x y _ => drawsTwice_of_exec fun s => (hdrw16 x y s).1⟩

end Sys2Proof.Machine

/-! SUPPORT. Proofs about class E: the skips on key state. -/

namespace Sys2Proof.Machine

/-! ## Which key a byte names, and whether it is held (R130, R131, D22) -/

/-- The byte is used whole: above 15 it names no key, so none is held. -/
theorem keyHeld_iff (keys : BitVec 16) (k : Byte) :
    keyHeld keys k = true ↔ k.toNat ≤ 15 ∧ keys.getLsbD k.toNat = true := by
  rw [keyHeld, Bool.and_eq_true, decide_eq_true_iff]

/-! ## The skips (R130, R131) -/

/-- Settles O49: the two skip on the same test and on its negation, and set `pc` alone. -/
theorem keySkipsFollowTheHeldKeys : Obligations.KeySkipsFollowTheHeldKeys := by
  intro x s
  simp only [← keyHeld_iff]
  refine ⟨⟨s.skipIf (keyHeld s.inKeys (s.getV x)), rfl, rfl, KeptExcept.setPc s _⟩,
    ⟨s.skipIf (!keyHeld s.inKeys (s.getV x)), rfl, ?_, KeptExcept.setPc s _⟩⟩
  cases hheld : keyHeld s.inKeys (s.getV x) with
  | true => rfl
  | false => rfl

end Sys2Proof.Machine

/-! SUPPORT. Proofs about class F: timers, the key wait, index arithmetic, the decimal digits, and the dump and load of
registers. -/

namespace Sys2Proof.Machine

/-! ## Timers (R135, R138, R139) -/

/-- Settles O50: one write each, of `V[X]`, of `DT` and of `ST`. -/
theorem timersAreReadAndSet : Obligations.TimersAreReadAndSet := by
  intro x s
  refine ⟨decodeWord_append_XNN rfl rfl, decodeWord_append_XNN rfl rfl, decodeWord_append_XNN rfl rfl, ?_, ?_, ?_⟩
  · exact ⟨s.setV x s.dt, rfl, by rw [State.setV_getV, if_pos rfl], KeptExcept.setV s x _⟩
  · exact ⟨s.setDt (s.getV x), rfl, rfl, KeptExcept.setDt s _⟩
  · exact ⟨s.setSt (s.getV x), rfl, rfl, KeptExcept.setSt s _⟩

/-! ## Index arithmetic (R140 to R142; D10, D23) -/

theorem toNat_fontLoAddress (b : Byte) : (fontLoAddress b).toNat = 0x050 + 5 * b.toNat := by
  have := b.isLt
  rw [fontLoAddress, Config.fontLoBase, BitVec.toNat_ofNat, Nat.mod_eq_of_lt (by omega)]

theorem toNat_fontHiAddress (b : Byte) : (fontHiAddress b).toNat = 0x0A0 + 10 * b.toNat := by
  have := b.isLt
  rw [fontHiAddress, Config.fontHiBase, BitVec.toNat_ofNat, Nat.mod_eq_of_lt (by omega)]

/-- Settles O52: `I` alone is set; the sum wraps, and a glyph's address lies below 65536 whatever the byte. -/
theorem indexArithmetic : Obligations.IndexArithmetic := by
  intro x s
  refine ⟨?_, ?_, ?_⟩
  · have hsum : (s.i + extendByte (s.getV x)).toNat = (s.i.toNat + (s.getV x).toNat) % 65536 := by
      rw [BitVec.toNat_add, toNat_extendByte]
    exact ⟨s.setI (s.i + extendByte (s.getV x)), rfl, hsum, KeptExcept.setI s _⟩
  · exact ⟨s.setI (fontLoAddress (s.getV x)), rfl, toNat_fontLoAddress _, KeptExcept.setI s _⟩
  · exact ⟨s.setI (fontHiAddress (s.getV x)), rfl, toNat_fontHiAddress _, KeptExcept.setI s _⟩

/-! ## What the instructions that address a run of bytes at `I` share (R56, R143 to R146) -/

/-- An instruction that checks the run of `n` bytes at `I` first faults where the run leaves memory. -/
theorem raises_of_exec_ite {i : Instr} {n : Nat} {s t : State}
    (hexec : exec i s = .next (if inMemory s.i.toNat n then t else s.raiseOutOfBounds s.i))
    (hout : 4096 < s.i.toNat + n) :
    ∃ u, exec i s = .next u ∧ Raises .outOfBoundsAccess (BitVec.ofNat 16 (max s.i.toNat 4096)) s u := by
  rw [if_neg (show ¬ inMemory s.i.toNat n from hout.not_ge)] at hexec
  exact ⟨_, hexec, s.raise_raises _ _⟩

/-- Byte `k` of a run stored at `a` is read back at `a + k`. -/
theorem State.writeBytes_readByte_add (s : State) (a k : Nat) (bs : List Byte) :
    (s.writeBytes a bs).readByte (a + k) = bs.getD k (s.readByte (a + k)) := by
  rw [State.writeBytes_eq, State.writeBytes_readByte, if_pos (Nat.le_add_right a k), Nat.add_sub_cancel_left]

/-- How far `I` moves, in numbers (R145, D8). -/
theorem State.toNat_advancedI (s : State) (x : Reg) :
    (s.advancedI x).toNat = (s.i.toNat + s.advanceCount x) % 65536 := by
  unfold State.advancedI State.advanceCount
  cases s.quirks.regSaveLoad with
  | unchanged => exact (Nat.mod_eq_of_lt s.i.isLt).symm
  | advanceByCount | advanceByCountPlusOne => simp

/-! ## The decimal digits (R143) -/

/-- The digits stored at `a`, read back as numbers. -/
theorem State.toNat_readByte_writeBytes_bcdDigits (s : State) (a k : Nat) (b : Byte) :
    ((s.writeBytes a (bcdDigits b)).readByte (a + k)).toNat =
      [b.toNat / 100, b.toNat / 10 % 10, b.toNat % 10].getD k (s.readByte (a + k)).toNat := by
  rw [State.writeBytes_readByte_add, ← bcdDigits_toNat, List.getD_map]

/-- Settles O53: the digits are stored where their run lies in memory. -/
theorem bcdStoresTheDigits : Obligations.BcdStoresTheDigits := by
  intro x s
  refine ⟨decodeWord_append_XNN rfl rfl, fun hin => ?_, raises_of_exec_ite rfl⟩
  have hdigit := fun k => s.toNat_readByte_writeBytes_bcdDigits s.i.toNat k (s.getV x)
  exact ⟨_, exec_ldB_of_inMemory x hin, hdigit 0, hdigit 1, hdigit 2, KeptExcept.writeBytes s _ 3 _ rfl⟩

/-! ## Register dump and load (R144 to R146; D8) -/

/-- Settles O54: the registers are stored one by one where their run lies in memory. -/
theorem registerDumpStores : Obligations.RegisterDumpStores := by
  intro x s
  refine ⟨fun hin => ?_, raises_of_exec_ite rfl⟩
  have hkept := KeptExcept.writeBytes s s.i.toNat (x.val + 1) _ (s.firstRegs_length (x.val + 1) x.isLt)
  refine ⟨_, exec_ldMemVx_of_inMemory x hin, fun k hk => ?_, s.toNat_advancedI x, hkept.append (KeptExcept.setI _ _)⟩
  rw [State.setI_readByte, State.writeBytes_readByte_add, State.firstRegs_getD _ _ _ _ (Nat.lt_succ_of_le hk)]

theorem exec_ldVxMem_of_inMemory {s : State} (x : Reg) (h : inMemory s.i.toNat (x.val + 1)) :
    exec (.ldVxMem x) s =
      .next ((s.loadFirstRegs (s.readBytes s.i.toNat (x.val + 1))).setI (s.advancedI x)) :=
  congrArg Host.Outcome.next (if_pos h)

/-- Settles O55: the registers up to `V[X]` are loaded one by one where their run lies in memory. -/
theorem registerLoadReads : Obligations.RegisterLoadReads := by
  intro x s
  refine ⟨fun hin => ?_, raises_of_exec_ite rfl⟩
  have hlen := s.readBytes_length s.i.toNat (x.val + 1)
  refine ⟨_, exec_ldVxMem_of_inMemory x hin, fun k hk => ?_, fun k hk => ?_, s.toNat_advancedI x, ?_⟩
  · rw [State.setI_getV, State.loadFirstRegs_getV, State.readBytes_getD _ _ _ _ _ (Nat.lt_succ_of_le hk)]
  · rw [State.setI_getV, State.loadFirstRegs_getV, List.getD_eq_default _ _ (hlen.trans_le hk)]
  · have hload := (s.loadFirstRegs_kept _ x hlen).mono (List.map_subset _ (List.filter_subset_self _))
    exact (hload.append (KeptExcept.setI _ _)).mono (by simp [or_comm])

/-- Settles O56: the load reads the bytes the dump has stored, at the same `I`. -/
theorem dumpThenLoadRestoresTheRegisters : Obligations.DumpThenLoadRestoresTheRegisters := by
  intro s t u hquirk hin hdump hui hbytes
  obtain ⟨t', hdump', hstored, hti, -⟩ := (registerDumpStores 15 s).1 hin
  obtain rfl : t' = t := Host.Outcome.next.inj (hdump'.symm.trans hdump)
  have hi : t'.i.toNat = s.i.toNat := by
    simp only [State.advanceCount, hquirk] at hti
    omega
  obtain ⟨v, hload, hloaded, -⟩ := (registerLoadReads 15 u).1 (by rw [hui, hi]; exact hin)
  refine ⟨v, hload, fun x => ?_⟩
  calc
    v.getV x = u.readByte (t'.i.toNat + x.val) := hui ▸ hloaded x (Fin.le_last x)
    _ = t'.readByte (s.i.toNat + x.val) := hi ▸ hbytes _ (by omega) (by omega)
    _ = s.getV x := hstored x (Fin.le_last x)

/-! ## The key wait (R136, R137, R173; D19) -/

/-- A key recorded outside `IGNORE` satisfies the wait. -/
theorem State.resolvedKey_eq_some {s : State} {k : Key} (hlast : s.lastKey = some k) (hk : s.ignore.getLsbD k.val = false) :
    s.resolvedKey = some k := by
  simp only [State.resolvedKey, hlast, hk, Bool.false_eq_true, if_false]

/-- Nothing satisfies the wait while no key is recorded but an ignored one. -/
theorem State.resolvedKey_eq_none {s : State} (h : ∀ k : Key, s.lastKey = some k → s.ignore.getLsbD k.val = true) :
    s.resolvedKey = none := by
  unfold State.resolvedKey
  cases hlast : s.lastKey with
  | none => rfl
  | some k => exact if_pos (h k hlast)

theorem toNat_keyByte (k : Key) : (BitVec.ofNat 8 k.val).toNat = k.val := by
  rw [BitVec.toNat_ofNat, Nat.mod_eq_of_lt (by omega)]

/-- Settles O51, by the three ways of `FX0A`. -/
theorem keyWaitBeginsResolvesOrWaits : Obligations.KeyWaitBeginsResolvesOrWaits := by
  intro x s
  refine ⟨fun hidle => ?_, fun k hw hlast hk => ?_, fun hw hignored => ?_⟩
  · have hkept := (KeptExcept.setKeyWait s true s.inKeys none).append (KeptExcept.setPc _ (s.pc - 2))
    exact ⟨_, exec_ldVxK_idle hidle, rfl, rfl, rfl, rfl, hkept.mono (by simp)⟩
  · refine ⟨_, exec_ldVxK_resolves hw (State.resolvedKey_eq_some hlast hk), ?_, rfl, rfl, rfl,
      (KeptExcept.setV s x _).append (KeptExcept.setKeyWait _ _ _ _)⟩
    rw [State.setKeyWait_getV, State.setV_getV, if_pos rfl, toNat_keyByte]
  · exact ⟨_, exec_ldVxK_waits hw (State.resolvedKey_eq_none hignored), rfl, KeptExcept.setPc s _⟩

/-! ## The key wait as a whole (R136, R163, R164, R173; D19) -/

/-- A machine that is not FAULTED and waits at an `FX0A`, with this key recorded or none. -/
structure State.WaitsForKey (s : State) (x : Reg) (recorded : Option Key) : Prop where
  running : s.fault = none
  waiting : s.waiting = true
  word : inMemory s.pc.toNat 2
  decoded : decodeWord s.fetchWord = some (.ldVxK x)
  lastKey : s.lastKey = recorded

theorem keyReleaseEvent_of_counts {s : State} {k : Key} (hf : s.fault = none) (hk : s.releaseCounts k = true) :
    keyReleaseEvent k s = .next (s.setKeyWait s.waiting s.ignore (some k)) := by
  simp only [keyReleaseEvent, hf, hk, Option.isNone_none, Bool.and_self, if_true]

/-- A release of an ignored key is not recorded. -/
theorem keyReleaseEvent_of_ignored {s : State} {k : Key} (hk : s.ignore.getLsbD k.val = true) :
    keyReleaseEvent k s = .next s := by
  simp only [keyReleaseEvent, State.releaseCounts, hk, Bool.not_true, Bool.and_false, Bool.false_and,
    Bool.false_eq_true, if_false]

theorem State.tickTimers_pending (s : State) : s.tickTimers.pending = s.pending := by
  unfold State.tickTimers
  split <;> rfl

theorem KeptExcept.tickTimers (s : State) : KeptExcept [.delay, .sound] s s.tickTimers := by
  unfold State.tickTimers
  split
  · exact KeptExcept.rfl' s _
  · exact (KeptExcept.setDt s _).append (KeptExcept.setSt _ _)

section
variable {s t u : State} {x : Reg} {k : Key} {recorded : Option Key} {e : Event} {es : List Event}

/-- What the timers and the host do is no matter to the wait. -/
theorem State.WaitsForKey.of_kept (h : s.WaitsForKey x recorded) (hkept : KeptExcept [.delay, .sound, .host] s t) :
    t.WaitsForKey x recorded := by
  have hpc : t.pc = s.pc := hkept.pc (by simp)
  have hmem : ∀ a, t.readByte a = s.readByte a := fun a => hkept.memory a (by simp [Part.coversAddress])
  have hword : t.fetchWord = s.fetchWord := by simp only [State.fetchWord, State.readWord, hpc, hmem]
  obtain ⟨hwaiting, -, hlast⟩ := hkept.keyWait (by simp)
  exact {
    running := (hkept.fault (by simp)).trans h.running
    waiting := hwaiting.trans h.waiting
    word := hpc ▸ h.word
    decoded := hword ▸ h.decoded
    lastKey := hlast.trans h.lastKey }

/-- The release of a key outside `IGNORE` is recorded, and the machine goes on waiting. -/
theorem State.WaitsForKey.step_of_release (h : s.WaitsForKey x none) (hp : s.pending = .keyRelease k :: es)
    (hk : s.ignore.getLsbD k.val = false) :
    ∃ t, step s = .next t ∧ t.WaitsForKey x (some k) ∧ t.ignore = s.ignore ∧ t.pc = s.pc ∧ t.pending = es ∧
      KeptExcept [.keyWait, .host] s t := by
  have hcounts : s.releaseCounts k = true := by
    rw [State.releaseCounts, h.waiting, hk, h.lastKey]
    rfl
  have hkept := (KeptExcept.setPending s es).append (KeptExcept.setKeyWait _ s.waiting s.ignore (some k))
  exact ⟨_, (step_of_pending hp).trans (keyReleaseEvent_of_counts h.running hcounts), { h with lastKey := rfl }, rfl, rfl,
    rfl, hkept.mono (by simp)⟩

/-- A STEP ends the wait once a key outside `IGNORE` is recorded. -/
theorem State.WaitsForKey.step_resolves (h : s.WaitsForKey x (some k)) (hk : s.ignore.getLsbD k.val = false)
    (hu : StepIsNext s u) :
    ∃ t, step s = .next t ∧ (t.getV x).toNat = k.val ∧ t.waiting = false ∧ t.ignore = 0 ∧ t.lastKey = none ∧
      t.pc = s.pc + 2 ∧ t.pending = u.pending ∧ KeptExcept [.reg x, .pc, .keyWait, .host] s t := by
  obtain ⟨-, hignore, -⟩ := hu.kept.keyWait (by simp)
  have hwait : u.WaitsForKey x (some k) := h.of_kept (hu.kept.mono (by simp))
  obtain ⟨-, hresolves, -⟩ := keyWaitBeginsResolvesOrWaits x (u.setPc (s.pc + 2))
  obtain ⟨v, hexec, hv, hidle, hempty, hnone, hkept⟩ := hresolves k hwait.waiting hwait.lastKey (hignore ▸ hk)
  obtain ⟨hpending, -⟩ := hkept.host (by simp)
  refine ⟨v.drawInputs, ?_, hv, hidle, hempty, hnone, hkept.pc (by simp), hpending, ?_⟩
  · rw [step_of_decoded h.running hu h.word h.decoded, hexec, withFreshInputs_next]
  · have hbody := (KeptExcept.setPc u (s.pc + 2)).append hkept
    exact ((hu.kept.append hbody).append (KeptExcept.drawInputs v)).mono (by simp)

/-- A STEP with no key recorded goes back to where it began: only new inputs are drawn. -/
theorem State.WaitsForKey.step_waits (h : s.WaitsForKey x none) (hu : StepIsNext s u) : step s = .next u.drawInputs := by
  have hwait : u.WaitsForKey x none := h.of_kept (hu.kept.mono (by simp))
  have hgoesOn : exec (.ldVxK x) (u.setPc (s.pc + 2)) = .next (u.setPc (s.pc + 2)).rewind :=
    exec_ldVxK_waits hwait.waiting (State.resolvedKey_eq_none fun k hk => absurd (hwait.lastKey.symm.trans hk) nofun)
  calc
    step s = withFreshInputs (exec (.ldVxK x) (u.setPc (s.pc + 2))) := step_of_decoded h.running hu h.word h.decoded
    _ = withFreshInputs (.next (u.setPc (s.pc + 2)).rewind) := by rw [hgoesOn]
    _ = .next u.drawInputs := by rw [← hu.pc_eq, u.setPc_advance_rewind, withFreshInputs_next]

/-- The events that leave a wait with this ignore-set as it is: a TICK, a STEP, a release of an ignored key. -/
def Event.LeavesWait (ignore : BitVec 16) (e : Event) : Prop :=
  e = .tick ∨ (∃ keys rnd, e = .step keys rnd) ∨ ∃ k : Key, e = .keyRelease k ∧ ignore.getLsbD k.val = true

/-- Such an event, served while the machine waits with no key recorded, changes the timers and the host's side at most. -/
theorem State.WaitsForKey.step_kept (h : s.WaitsForKey x none) (hp : s.pending = e :: es)
    (he : e.LeavesWait s.ignore) :
    ∃ t, step s = .next t ∧ t.pending = es ∧ KeptExcept [.delay, .sound, .host] s t := by
  have htaken := KeptExcept.setPending s es
  rcases he with rfl | ⟨keys, rnd, rfl⟩ | ⟨k, rfl, hk⟩
  · have hticked := (KeptExcept.tickTimers (s.setPending es)).append (KeptExcept.setTone _ (s.setPending es).tickResult)
    exact ⟨_, step_of_pending hp, State.tickTimers_pending _, (htaken.append hticked).mono (by simp)⟩
  · have hu : StepIsNext s ((s.setPending es).setInputs keys rnd) := .inr ⟨keys, rnd, es, hp, rfl⟩
    exact ⟨_, h.step_waits hu, rfl, (hu.kept.trans (KeptExcept.drawInputs _)).mono (by simp)⟩
  · exact ⟨_, (step_of_pending hp).trans (keyReleaseEvent_of_ignored hk), rfl, htaken.mono (by simp)⟩

end

/-- A run through such events: each is served while the machine waits, and leaves it waiting with the same ignore-set. -/
theorem State.WaitsForKey.run_kept {x : Reg} (es rest : List Event) {s : State} (h : s.WaitsForKey x none)
    (hp : s.pending = es ++ rest) (hes : ∀ e ∈ es, e.LeavesWait s.ignore) :
    ∃ t : State, Host.Core.run core es.length s = .next t ∧ t.pending = rest ∧
      KeptExcept [.delay, .sound, .host] s t := by
  induction es generalizing s with
  | nil => exact ⟨s, rfl, hp, KeptExcept.rfl' s _⟩
  | cons e es ih =>
    obtain ⟨he, hes⟩ := List.forall_mem_cons.mp hes
    obtain ⟨t, hstep, hpending, hkept⟩ := h.step_kept hp he
    obtain ⟨-, hignore, -⟩ := hkept.keyWait (by simp)
    obtain ⟨u, hrun, hrest, hkeptRun⟩ := ih (h.of_kept hkept) hpending (hignore ▸ hes)
    exact ⟨u, (run_of_step _ hstep).trans hrun, hrest, hkept.trans hkeptRun⟩

/-- Settles O58: the release is recorded, and the STEP that follows resolves the wait. -/
theorem qualifyingReleaseEndsTheWait : Obligations.QualifyingReleaseEndsTheWait := by
  intro s x k keys rnd es hf hw hm hd hlast hk hp
  have hwait : s.WaitsForKey x none := ⟨hf, hw, hm, hd, hlast⟩
  obtain ⟨t, hrelease, hwaits, hignore, hpc, hpending, hst⟩ := hwait.step_of_release hp hk
  obtain ⟨u, hstep, hv, hidle, hempty, hnone, hpast, hrest, htu⟩ :=
    hwaits.step_resolves (hignore ▸ hk) (.inr ⟨keys, rnd, es, hpending, rfl⟩)
  exact ⟨t, u, hrelease, hstep, hv, hidle, hempty, hnone, hpc ▸ hpast, hrest, (hst.mono (by simp)).trans htu⟩

/-- Settles O59: a machine that waits with no key recorded runs through all the events and goes on waiting. -/
theorem ignoredKeysNeverEndTheWait : Obligations.IgnoredKeysNeverEndTheWait := by
  intro es rest s x hf hw hm hd hlast
  exact State.WaitsForKey.run_kept es rest ⟨hf, hw, hm, hd, hlast⟩

end Sys2Proof.Machine

/-! SUPPORT. Proofs about exceptions and the host's port: the faults a STEP takes, the machine while FAULTED, the inputs of a
STEP, requests made at once, TICK, KEY_RELEASE, SET_QUIRKS and DISPLAY. -/

namespace Sys2Proof.Machine

/-! ## The faults a STEP takes (R150 to R154) -/

/-- What a fault, or none, makes of a state when the instruction stands at `ia`: the fault is latched and nothing else
changed, or `FAULT` is as before (R153). -/
def State.Takes (s t : State) (ia : Word) : Option FaultRecord → Prop
  | none => t.fault = s.fault
  | some f => f.ia = ia ∧ t = s.latch ia f.cause f.info

section
variable {s t : State} {ia : Word}

/-- `FAULT` holds the fault taken, and nothing where none was taken. -/
theorem State.Takes.fault_eq {o : Option FaultRecord} (h : s.Takes t ia o) (hf : s.fault = none) : t.fault = o := by
  cases o with
  | none => exact Eq.trans h hf
  | some f =>
    obtain ⟨rfl, rfl⟩ := h
    rfl

/-- The check of a run of `n` bytes at `I`, as the table of R151 has it (R56). -/
def State.runFault (s : State) (n : Nat) : Option FaultRecord :=
  if s.i.toNat + n ≤ 4096 then none else some ⟨.outOfBoundsAccess, s.pc - 2, BitVec.ofNat 16 (max s.i.toNat 4096)⟩

/-- Whoever checks a run first takes the fault of the table. -/
theorem State.takes_runFault (n : Nat) (h : t.fault = s.fault) :
    s.Takes (if inMemory s.i.toNat n then t else s.raiseOutOfBounds s.i) (s.pc - 2) (s.runFault n) := by
  unfold State.runFault
  by_cases hm : inMemory s.i.toNat n
  · rw [if_pos hm, if_pos ((inMemory_iff _ _).mp hm)]
    exact h
  · rw [if_neg hm, if_neg ((inMemory_iff _ _).not.mp hm)]
    exact ⟨rfl, rfl⟩

theorem State.draw_takes (x y : Reg) (rows bpr : Nat) :
    s.Takes (s.draw x y rows bpr) (s.pc - 2) (s.runFault (rows * bpr)) :=
  State.takes_runFault (rows * bpr) rfl

/-- `00EE` faults only on an empty stack. -/
theorem exec_ret_takes (h : exec .ret s = .next t) : s.Takes t (s.pc - 2) (instrFault .ret s) := by
  cases hs : s.stack with
  | nil =>
    rw [exec_ret_empty hs] at h
    cases h
    rw [instrFault, if_pos hs]
    exact ⟨rfl, rfl⟩
  | cons a rest =>
    rw [exec_ret_pops hs] at h
    cases h
    rw [instrFault, if_neg (by simp [hs])]
    rfl

/-- `2NNN` faults only where the depth is finite and reached (R29). -/
theorem exec_call_takes (nnn : Addr12) (h : exec (.call nnn) s = .next t) :
    s.Takes t (s.pc - 2) (instrFault (.call nnn) s) := by
  cases hd : s.params.stackDepth with
  | none =>
    have hfault : instrFault (.call nnn) s = none := by simp only [instrFault, hd]
    rw [exec_call_of_room nnn (by simp [hd])] at h
    cases h
    rw [hfault]
    rfl
  | some d =>
    have hfault : instrFault (.call nnn) s =
        if d ≤ s.stack.length then some ⟨.stackOverflow, s.pc - 2, 0⟩ else none := by simp only [instrFault, hd]
    by_cases hfull : d ≤ s.stack.length
    · rw [exec_call_of_full nnn hd hfull] at h
      cases h
      rw [hfault, if_pos hfull]
      exact ⟨rfl, rfl⟩
    · rw [exec_call_of_room nnn (by simpa [hd] using hfull)] at h
      cases h
      rw [hfault, if_neg hfull]
      rfl

/-- An instruction takes exactly the fault that the table of R151 lists for it. -/
theorem exec_takes {i : Instr} (h : exec i s = .next t) : s.Takes t (s.pc - 2) (instrFault i s) := by
  cases i
  case ret => exact exec_ret_takes h
  case call nnn => exact exec_call_takes nnn h
  case drw x y n =>
    have hdraw := s.draw_takes x y n.toNat 1
    rw [Nat.mul_one] at hdraw
    cases h
    exact hdraw
  case drw16 x y =>
    cases h
    exact s.draw_takes x y 16 2
  case ldB | ldMemVx | ldVxMem =>
    cases h
    exact State.takes_runFault _ rfl
  all_goals exact (exec_kept h).fault (by simp [State.writtenParts, State.mem_prologueParts])

/-- Where `pc` stands is no matter to what a fault makes of a state: it ends at `ia`. -/
theorem State.takes_of_setPc {a : Word} {o : Option FaultRecord} (h : (s.setPc a).Takes t ia o) : s.Takes t ia o := by
  cases o <;> exact h

/-- The body of a STEP answers a next state and takes exactly the fault that `stepFault` says. -/
theorem stepBody_takes (s : State) : ∃ t, stepBody s = .next t ∧ s.Takes t s.pc (stepFault s) := by
  by_cases hm : inMemory s.pc.toNat 2
  · have hfetched := (inMemory_iff _ _).mp hm
    cases hd : decodeWord s.fetchWord with
    | some i =>
      obtain ⟨t, ht⟩ := everyInstructionAnswersANextState i (s.setPc (s.pc + 2))
      have htakes := exec_takes ht
      have hpc : s.pc + 2 - 2 = s.pc := by bv_omega
      have hfault : stepFault s = instrFault i (s.setPc (s.pc + 2)) := by
        simp only [stepFault, if_pos hfetched, hd, State.advance_eq]
      rw [State.setPc_pc, hpc, ← hfault] at htakes
      exact ⟨t, (stepBody_decoded hm hd).trans ht, State.takes_of_setPc htakes⟩
    | none =>
      have hfault : stepFault s = some ⟨.unsupportedOpcode, s.pc, s.fetchWord⟩ := by
        simp only [stepFault, if_pos hfetched, hd]
      exact ⟨_, stepBody_illegal hm hd, hfault ▸ ⟨rfl, rfl⟩⟩
  · have hfault : stepFault s = some ⟨.outOfBoundsAccess, s.pc, outOfBoundsInfo s.pc⟩ :=
      if_neg ((inMemory_iff _ _).not.mp hm)
    exact ⟨_, stepBody_outside hm, hfault ▸ ⟨rfl, rfl⟩⟩

variable {u : State}

theorem StepIsNext.stepFault_eq (hu : StepIsNext s u) : stepFault u = stepFault s := by
  rcases hu with ⟨-, rfl⟩ | ⟨keys, rnd, es, -, rfl⟩
  · rfl
  · rfl

/-- A STEP on a machine with no fault latched runs its body, which takes exactly the fault that `stepFault` says. -/
theorem step_takes (hf : s.fault = none) (hu : StepIsNext s u) :
    ∃ v, stepBody u = .next v ∧ step s = .next v.drawInputs ∧ u.Takes v u.pc (stepFault s) := by
  obtain ⟨v, hbody, htakes⟩ := stepBody_takes u
  refine ⟨v, hbody, ?_, hu.stepFault_eq ▸ htakes⟩
  rw [step_of_running hf hu, hbody, withFreshInputs_next]

end

/-- Settles O11: a STEP takes the fault of the table, and the host reads `FAULT` as the table's codes say. -/
theorem faultsAreExactlyThoseListed : Obligations.FaultsAreExactlyThoseListed := by
  intro s u hf hu
  obtain ⟨v, -, hstep, htakes⟩ := step_takes hf hu
  have hfault : v.drawInputs.fault = stepFault s := htakes.fault_eq (hu.fault_eq.trans hf)
  exact ⟨_, hstep, hfault, by rw [State.getFault_eq, hfault]⟩

/-- Settles O12: the fault taken is the one latched, and its latch is all that the STEP's body did. -/
theorem faultingStepChangesNothingElse : Obligations.FaultingStepChangesNothingElse := by
  intro s u t f hf hu hstep hlatched
  obtain ⟨v, hbody, hstep', htakes⟩ := step_takes hf hu
  obtain rfl : v.drawInputs = t := Host.Outcome.next.inj (hstep'.symm.trans hstep)
  have htaken : stepFault s = some f := (htakes.fault_eq (hu.fault_eq.trans hf)).symm.trans hlatched
  rw [htaken] at htakes
  obtain ⟨hia, rfl⟩ := htakes
  obtain ⟨t, ht, -, hkept⟩ := step_of_latch hf hu hbody
  obtain rfl : t = _ := Host.Outcome.next.inj (ht.symm.trans hstep)
  exact ⟨hia.trans hu.pc_eq, hkept⟩

/-! ## The inputs of a STEP (R162) -/

/-- Settles O15: the random byte alone is changed, which no instruction but `CXNN` reads. -/
theorem randomByteIsReadOnlyByRnd : Obligations.RandomByteIsReadOnlyByRnd := by
  intro i s r hrnd
  exact exec_mapUnread (style := id) (keys := id) (rnd := fun _ => r) i s
    (fun ⟨x, nn, hi⟩ => absurd hi (hrnd x nn)) (fun _ => rfl) (fun _ => .inr rfl)

/-- Settles O16: the held keys alone are changed, which no instruction but those excluded reads. -/
theorem heldKeysAreReadOnlyByKeyInstructions : Obligations.HeldKeysAreReadOnlyByKeyInstructions := by
  intro i s k hskp hsknp hwait
  exact exec_mapUnread (style := id) (keys := fun _ => k) (rnd := id) i s (fun _ => rfl)
    (fun ⟨x, hi⟩ => hi.elim (fun h => absurd h (hskp x)) fun h => absurd h (hsknp x)) (fun hi => .inl (hwait hi))

/-! ## Requests made at once (R161, D25) -/

theorem Event.rank_lt (e : Event) : e.rank < 6 := by cases e <;> simp [Event.rank]

/-- A list sorted into its ranks below `n` is a rearrangement of its entries of rank below `n`. -/
theorem perm_flatMap_filter_rank (requests : List Event) (n : Nat) :
    ((List.range n).flatMap fun r => requests.filter fun e => e.rank == r).Perm
      (requests.filter fun e => decide (e.rank < n)) := by
  induction n with
  | zero => simp
  | succ n ih =>
    have hbelow : (requests.filter fun e => decide (e.rank < n + 1)).filter (fun e => decide (e.rank < n)) =
        requests.filter fun e => decide (e.rank < n) := by
      rw [List.filter_filter]
      exact List.filter_congr fun e _ => by grind
    have hlast : (requests.filter fun e => decide (e.rank < n + 1)).filter (fun e => !decide (e.rank < n)) =
        requests.filter fun e => e.rank == n := by
      rw [List.filter_filter]
      exact List.filter_congr fun e _ => by grind
    have hsplit := List.filter_append_perm (fun e : Event => decide (e.rank < n))
      (requests.filter fun e => decide (e.rank < n + 1))
    rw [hbelow, hlast] at hsplit
    rw [List.range_succ, List.flatMap_append, List.flatMap_singleton]
    exact (ih.append_right _).trans hsplit

/-- Every request is served, each once. -/
theorem serviceOrder_perm (requests : List Event) : (serviceOrder requests).Perm requests := by
  have hall : (requests.filter fun e => decide (e.rank < 6)) = requests :=
    List.filter_eq_self.mpr fun e _ => decide_eq_true e.rank_lt
  exact (perm_flatMap_filter_rank requests 6).trans (.of_eq hall)

/-- The ranks in their order. -/
theorem serviceOrder_eq (requests : List Event) :
    serviceOrder requests =
      requests.filter (·.rank == 0) ++ requests.filter (·.rank == 1) ++ requests.filter (·.rank == 2) ++
      requests.filter (·.rank == 3) ++ requests.filter (·.rank == 4) ++ requests.filter (·.rank == 5) := by
  have hranks : List.range 6 = [0, 1, 2, 3, 4, 5] := rfl
  simp only [serviceOrder, hranks, List.flatMap_cons, List.flatMap_nil, List.append_nil, List.append_assoc]

/-- Settles O22: the order of service is a sort by rank, and the ranks are the kinds. -/
theorem concurrentRequestsAreServedInOrder : Obligations.ConcurrentRequestsAreServedInOrder := by
  intro s requests
  refine ⟨serviceOrder requests, rfl, serviceOrder_perm requests, ?_, KeptExcept.setPending s _⟩
  rw [serviceOrder_eq]
  congr 6
  all_goals
    funext e
    cases e <;> rfl

/-! ## TICK (R155, R163) -/

section
variable {s : State}

theorem State.tickTimers_faulted (hf : s.fault ≠ none) : s.tickTimers = s := if_pos (Option.isSome_iff_ne_none.mpr hf)

theorem State.tickTimers_running (hf : s.fault = none) :
    s.tickTimers = (s.setDt (countDown s.dt)).setSt (countDown s.st) := if_neg (by simp [hf])

theorem State.tickResult_faulted (hf : s.fault ≠ none) : s.tickResult = false := by
  rw [State.tickResult, Option.isNone_eq_false_iff.mpr (Option.isSome_iff_ne_none.mpr hf), Bool.false_and]

theorem State.tickResult_running (hf : s.fault = none) : s.tickResult = decide (s.st ≠ 0) := by
  rw [State.tickResult, hf, Option.isNone_none, Bool.true_and, bne, beq_eq_decide, decide_not]

theorem tickEvent_faulted (hf : s.fault ≠ none) : tickEvent s = .next (s.setTone false) := by
  rw [tickEvent, State.tickTimers_faulted hf, State.tickResult_faulted hf]

theorem tickEvent_running (hf : s.fault = none) :
    tickEvent s = .next (((s.setDt (countDown s.dt)).setSt (countDown s.st)).setTone (decide (s.st ≠ 0))) := by
  rw [tickEvent, State.tickTimers_running hf, State.tickResult_running hf]

theorem toNat_countDown (b : Byte) : (countDown b).toNat = b.toNat - 1 := by
  unfold countDown
  split
  · next h => rw [h]; rfl
  · bv_omega

end

/-- Settles O23, by the two cases of `FAULT`. -/
theorem tickCountsBothTimersDown : Obligations.TickCountsBothTimersDown := by
  intro s es hp
  have htaken := KeptExcept.setPending s es
  by_cases hf : s.fault = none
  · have hkept := (htaken.append (KeptExcept.setDt _ (countDown s.dt))).append (KeptExcept.setSt _ (countDown s.st))
    exact ⟨_, (step_of_pending hp).trans (tickEvent_running hf), rfl, fun _ => ⟨rfl, rfl, rfl⟩, fun h => absurd hf h,
      rfl, rfl, rfl, (hkept.append (KeptExcept.setTone _ _)).mono (by simp)⟩
  · exact ⟨_, (step_of_pending hp).trans (tickEvent_faulted hf), rfl, fun h => absurd h hf, fun _ => ⟨rfl, rfl, rfl⟩,
      rfl, rfl, rfl, (htaken.append (KeptExcept.setTone _ _)).mono (by simp)⟩

/-- A TICK with no fault latched, in numbers: the result is whether `ST` was not 0, and `ST` is one less. -/
theorem step_of_tick {s : State} {es : List Event} (hf : s.fault = none) (hp : s.pending = .tick :: es) :
    ∃ t, step s = .next t ∧ t.fault = none ∧ t.pending = es ∧ t.tone = decide (0 < s.st.toNat) ∧
      t.st.toNat = s.st.toNat - 1 := by
  obtain ⟨t, hstep, hpending, hrunning, -, -, -, -, hkept⟩ := tickCountsBothTimersDown s es hp
  obtain ⟨htone, -, hst⟩ := hrunning hf
  refine ⟨t, hstep, (hkept.fault (by simp)).trans hf, hpending, ?_, hst ▸ toNat_countDown s.st⟩
  rw [htone, decide_eq_decide]
  bv_omega

/-- Settles O24, by induction on the number of the TICK. -/
theorem toneLastsAsManyTicksAsTheSoundTimer : Obligations.ToneLastsAsManyTicksAsTheSoundTimer := by
  intro n k
  induction k generalizing n with
  | zero =>
    intro s es hf hn _ hp
    obtain ⟨t, hstep, -, -, htone, hst⟩ := step_of_tick hf hp
    exact ⟨t, run_of_step 0 hstep, hn ▸ htone, hn ▸ hst⟩
  | succ k ih =>
    intro s es hf hn hk hp
    obtain ⟨m, rfl⟩ : ∃ m, n = m + 1 := ⟨n - 1, by omega⟩
    obtain ⟨t, hstep, hft, hpending, -, hst⟩ := step_of_tick hf hp
    obtain ⟨u, hrun, htone, hu⟩ := ih m t es hft (by rw [hst, hn, Nat.add_sub_cancel]) (by omega) hpending
    refine ⟨u, (run_of_step _ hstep).trans hrun, ?_, ?_⟩
    · rw [htone, decide_eq_decide, Nat.add_lt_add_iff_right]
    · rw [hu, Nat.add_sub_add_right]

/-! ## KEY_RELEASE (R155, R164) -/

theorem State.releaseCounts_iff (s : State) (k : Key) :
    s.releaseCounts k = true ↔ s.waiting = true ∧ s.ignore.getLsbD k.val = false ∧ s.lastKey = none := by
  simp [State.releaseCounts, and_assoc]

/-- A release that finds a fault latched, or does not count, changes nothing. -/
theorem keyReleaseEvent_of_not_counts {s : State} {k : Key} (h : ¬ (s.fault = none ∧ s.releaseCounts k = true)) :
    keyReleaseEvent k s = .next s :=
  congrArg Host.Outcome.next (if_neg (by simpa using h))

/-- Settles O25: a release either counts, with no fault latched, or changes nothing. -/
theorem keyReleaseRecordsTheFirstQualifyingKey : Obligations.KeyReleaseRecordsTheFirstQualifyingKey := by
  intro s k es hp
  have htaken := KeptExcept.setPending s es
  have hcounts := (s.setPending es).releaseCounts_iff k
  by_cases h : s.fault = none ∧ s.waiting = true ∧ s.ignore.getLsbD k.val = false ∧ s.lastKey = none
  · obtain ⟨hf, hw, hk⟩ := h
    have hrecorded := KeptExcept.setKeyWait (s.setPending es) s.waiting s.ignore (some k)
    exact ⟨_, (step_of_pending hp).trans (keyReleaseEvent_of_counts hf (hcounts.mpr ⟨hw, hk⟩)), rfl,
      fun _ => ⟨rfl, hw, rfl, (htaken.append hrecorded).mono (by simp)⟩, fun hno => absurd ⟨hf, hw, hk⟩ hno⟩
  · have hno : ¬ (s.fault = none ∧ (s.setPending es).releaseCounts k = true) :=
      fun ⟨hf, hk⟩ => h ⟨hf, hcounts.mp hk⟩
    exact ⟨_, (step_of_pending hp).trans (keyReleaseEvent_of_not_counts hno), rfl, fun hyes => absurd hyes h,
      fun _ => htaken⟩

/-! ## SET_QUIRKS (R34, R155, R165) -/

theorem setQuirksEvent_faulted {s : State} (bits : Byte) (hf : s.fault ≠ none) : setQuirksEvent bits s = .next s :=
  if_pos (Option.isSome_iff_ne_none.mpr hf)

theorem setQuirksEvent_legal {s : State} {bits : Byte} {q : Quirks} (hf : s.fault = none)
    (hq : Quirks.ofBits bits = some q) : setQuirksEvent bits s = .next (s.setQuirks q) := by
  simp only [setQuirksEvent, hf, Option.isSome_none, Bool.false_eq_true, if_false, hq]

theorem setQuirksEvent_illegal {s : State} {bits : Byte} (hf : s.fault = none) (hq : Quirks.ofBits bits = none) :
    setQuirksEvent bits s = .refused (.illegalQuirks bits) := by
  simp only [setQuirksEvent, hf, Option.isSome_none, Bool.false_eq_true, if_false, hq]

/-- `reg_save_load = 3` and a set bit 7 are no legal bundle (R34, D28). -/
theorem Quirks.ofBits_eq_none {b : Byte} (h : (b.getLsbD 3 = true ∧ b.getLsbD 2 = true) ∨ b.getLsbD 7 = true) :
    Quirks.ofBits b = none := by
  unfold Quirks.ofBits
  rcases h with ⟨h3, h2⟩ | h7
  · simp only [h3, h2, ite_self]
  · simp only [h7, if_true]

/-- Settles O26: the port bits of a bundle read back as that bundle, and the patterns named as none. -/
theorem setQuirksReplacesTheBundle : Obligations.SetQuirksReplacesTheBundle := by
  constructor
  · intro s q es hf hp
    exact ⟨_, (step_of_pending hp).trans (setQuirksEvent_legal hf q.ofBits_toBits), rfl, rfl,
      ((KeptExcept.setPending s es).append (KeptExcept.setQuirks _ q)).mono (by simp)⟩
  · intro s bits es hf hp hbits
    exact (step_of_pending hp).trans (setQuirksEvent_illegal hf (Quirks.ofBits_eq_none hbits))

/-! ## The FAULTED machine (R155, D18) -/

/-- Settles O8: each of the four events finds the fault latched. -/
theorem faultedMachineIsFrozen : Obligations.FaultedMachineIsFrozen := by
  intro s f hf
  have hfaulted : s.fault ≠ none := by simp [hf]
  have htaken := KeptExcept.setPending s
  refine ⟨fun u hu => ?_, fun es hp => ?_, fun k es hp => ?_, fun bits es hp => ?_⟩
  · exact (step_of_stepIsNext hu).trans (stepEvent_faulted (hu.fault_eq.trans hf))
  · exact ⟨_, (step_of_pending hp).trans (tickEvent_faulted hfaulted), rfl, rfl,
      (htaken es).trans (KeptExcept.setTone _ false)⟩
  · exact ⟨_, (step_of_pending hp).trans (keyReleaseEvent_of_not_counts fun h => hfaulted h.1), rfl, htaken es⟩
  · exact ⟨_, (step_of_pending hp).trans (setQuirksEvent_faulted bits hfaulted), rfl, htaken es⟩

/-! ## DISPLAY (R31, R166) -/

/-- A row of the display is the row of pixels of its number. -/
theorem State.row_of_display {s : State} {y : Nat} {row : List Bool} (h : s.display[y]? = some row) :
    row = (List.range s.width).map fun x => s.pixel x y := by
  obtain ⟨hy, rfl⟩ := List.getElem?_eq_some_iff.mp h
  simp [State.display]

theorem State.length_of_display {s : State} {y : Nat} {row : List Bool} (h : s.display[y]? = some row) :
    row.length = s.width := by
  rw [State.row_of_display h, List.length_map, List.length_range]

/-- Settles O28, row by row. -/
theorem displayShowsTheGrid : Obligations.DisplayShowsTheGrid := by
  intro s
  refine ⟨?_, fun row hrow => ?_, fun x y row hrow hx => ?_⟩
  · rw [State.display, List.length_map, List.length_range, State.height, gridHeight]
  · obtain ⟨y, hy⟩ := List.mem_iff_getElem?.mp hrow
    exact State.length_of_display hy
  · rw [State.length_of_display hrow] at hx
    rw [State.row_of_display hrow, List.getElem?_map, List.getElem?_range hx, Option.map_some]

end Sys2Proof.Machine

/-! SUPPORT. Proofs about LOAD: the reset image of a program, and what a load leaves fresh. -/

namespace Sys2Proof.Machine

/-! ## The reset image of a program (R53) -/

section
variable {font : FontLo} {bytes : List Byte} {a : Nat}

/-- The program reads as its bytes. -/
theorem resetImage_read_program {k : Nat} {b : Byte} (h : bytes[k]? = some b) :
    (resetImage font bytes).read font (0x200 + k) = b := by
  rw [resetImage, Memory.read_writeList, if_pos (Nat.le_add_right _ _), Nat.add_sub_cancel_left,
    List.getD_eq_getElem?_getD, h, Option.getD_some]

/-- Outside the program memory reads as the reset image of the empty program. -/
theorem resetImage_read_outside (h : ¬ (0x200 ≤ a ∧ a < 0x200 + bytes.length)) :
    (resetImage font bytes).read font a = resetByte font a :=
  Memory.read_writeList_outside [] _ _ _ h

/-- The fonts lie below the program, which leaves them alone. -/
theorem resetImage_read_below (h : a < 0x200) : (resetImage font bytes).read font a = resetByte font a :=
  resetImage_read_outside (by omega)

end

theorem State.holdsImage_of_mem {s : State} {bytes : List Byte} (hm : s.mem = resetImage s.params.fontLo bytes) :
    s.HoldsImage bytes := by
  have hread : ∀ a, s.readByte a = (resetImage s.params.fontLo bytes).read s.params.fontLo a :=
    fun a => congrArg (Memory.read _ · a) hm
  exact {
    fontLo := fun k => by rw [hread, resetImage_read_below (by omega), resetByte_fontLo k.val k.isLt]
    fontHi := fun k hk => by rw [hread, resetImage_read_below (by omega), resetByte_fontHi k hk]
    program := fun k b hb => by rw [hread, resetImage_read_program hb]
    zero := fun a hfont hprogram => by rw [hread, resetImage_read_outside hprogram, resetByte_zero a hfont] }

/-! ## LOAD (R182, R183) -/

/-- LOAD makes fresh what POR does (D24). -/
theorem State.loadProgram_fresh (s : State) (bytes : List Byte) : (s.loadProgram bytes).Fresh :=
  { s.por_poweredOn.toFresh with }

theorem loadEvent_fits {bytes : List Byte} (s : State) (h : bytes.length ≤ 3584) :
    loadEvent bytes s = .next (s.loadProgram bytes) := if_pos h

theorem loadEvent_tooLong {bytes : List Byte} (s : State) (h : 3584 < bytes.length) :
    loadEvent bytes s = .refused (.loadTooLong bytes.length) := if_neg (Nat.not_le.mpr h)

/-- Settles O21, by whether the image fits. -/
theorem loadStartsTheProgramFresh : Obligations.LoadStartsTheProgramFresh := by
  intro s bytes es hp
  have hserved : step s = loadEvent bytes (s.setPending es) := step_of_pending hp
  constructor
  · intro hfits
    exact ⟨_, hserved.trans (loadEvent_fits _ hfits), State.loadProgram_fresh _ bytes, State.holdsImage_of_mem rfl,
      rfl, fun _ _ => rfl, rfl, rfl, rfl⟩
  · intro hlong
    exact hserved.trans (loadEvent_tooLong _ hlong)

end Sys2Proof.Machine
